-- ==== Sys2Proof/Word.lean ====
section
/-!
DEFINITION. The sizes of data the spec names (00_scope.md R10 to R12, R14): bytes, 32-bit register words, and the
16-byte and 176-byte values, each as plain data with one accessor by index.
-/

namespace Sys2Proof

/-- A byte (R11). -/
abbrev Byte := BitVec 8

/-- A word in register contexts: 32 bits (R11). -/
abbrev Word := BitVec 32

/-- Four like things in index order. A key-schedule word is a `Quad Byte` (R161), a Block is a `Quad` of its four
columns (R14), the written marks of a data register are a `Quad Bool` (R32). -/
structure Quad (α : Type) where
  e0 : α
  e1 : α
  e2 : α
  e3 : α
deriving DecidableEq, Repr

/-- Element `i`. -/
def Quad.get {α : Type} (q : Quad α) (i : Fin 4) : α :=
  match i with
  | 0 => q.e0
  | 1 => q.e1
  | 2 => q.e2
  | 3 => q.e3

/-- The four elements given by index. -/
def Quad.ofFn {α : Type} (f : Fin 4 → α) : Quad α :=
  ⟨f 0, f 1, f 2, f 3⟩

/-- The same function on every element. -/
def Quad.map {α β : Type} (f : α → β) (q : Quad α) : Quad β :=
  ⟨f q.e0, f q.e1, f q.e2, f q.e3⟩

/-- Element by element. -/
def Quad.zipWith {α β γ : Type} (f : α → β → γ) (p : Quad α) (q : Quad β) : Quad γ :=
  ⟨f p.e0 q.e0, f p.e1 q.e1, f p.e2 q.e2, f p.e3 q.e3⟩

/-- Element `i` replaced, the others kept. -/
def Quad.set {α : Type} (q : Quad α) (i : Fin 4) (v : α) : Quad α :=
  match i with
  | 0 => { q with e0 := v }
  | 1 => { q with e1 := v }
  | 2 => { q with e2 := v }
  | 3 => { q with e3 := v }

/-- Four copies of one thing. -/
def Quad.replicate {α : Type} (v : α) : Quad α :=
  ⟨v, v, v, v⟩

/-- Four bytes: a column of a Block, a data-register word by its bytes, a word of the key schedule (R14, R55, R161). -/
abbrev Column := Quad Byte

/-- A 16-byte value: columns 0 to 3, column `c` being bytes `4c` to `4c + 3` (R12, R14). -/
abbrev Block := Quad Column

/-- Byte `i` of a 16-byte value: row `i mod 4` of column `i div 4` (R14, R59). -/
def Block.byte (b : Block) (i : Fin 16) : Byte :=
  (Quad.get b ⟨i.val / 4, by omega⟩).get ⟨i.val % 4, by omega⟩

/-- The 176-byte expanded key as its eleven round keys (R10, R164). -/
structure ExpandedKey where
  k0 : Block
  k1 : Block
  k2 : Block
  k3 : Block
  k4 : Block
  k5 : Block
  k6 : Block
  k7 : Block
  k8 : Block
  k9 : Block
  k10 : Block
deriving DecidableEq, Repr

/-- Round key `k`. -/
def ExpandedKey.roundKey (e : ExpandedKey) (k : Fin 11) : Block :=
  match k with
  | 0 => e.k0
  | 1 => e.k1
  | 2 => e.k2
  | 3 => e.k3
  | 4 => e.k4
  | 5 => e.k5
  | 6 => e.k6
  | 7 => e.k7
  | 8 => e.k8
  | 9 => e.k9
  | 10 => e.k10

/-- The eleven round keys given by index. -/
def ExpandedKey.ofRoundKeys (f : Fin 11 → Block) : ExpandedKey :=
  ⟨f 0, f 1, f 2, f 3, f 4, f 5, f 6, f 7, f 8, f 9, f 10⟩

/-- Key-schedule word `W[i]`: bytes `4i` to `4i + 3` of the expanded key (R31, R161). -/
def ExpandedKey.word (e : ExpandedKey) (i : Fin 44) : Column :=
  Quad.get (e.roundKey ⟨i.val / 4, by omega⟩) ⟨i.val % 4, by omega⟩

/-- Byte `i` of the expanded key (R12, R31). -/
def ExpandedKey.byte (e : ExpandedKey) (i : Fin 176) : Byte :=
  (e.word ⟨i.val / 4, by omega⟩).get ⟨i.val % 4, by omega⟩

end Sys2Proof
end

