-- ==== Sys2Proof/Syntax.lean ====
section
/-!
DEFINITION. The nine commands of 30_encoding.md R82, with their operand fields as R81 gives them: unsigned bytes.
-/

namespace Sys2Proof

/-- A command. One constructor per row of spec/opcode_table.json. -/
inductive Instr where
  /-- SUB (R123). -/
  | sub
  /-- INVSUB (R124). -/
  | invsub
  /-- ARK with its field RKSEL: a round-key index 0 to 10, or 0xFF for the RKEY register (R125). -/
  | ark (rksel : Byte)
  /-- SHR (R143). -/
  | shr
  /-- INVSHR (R144). -/
  | invshr
  /-- MIX (R145). -/
  | mix
  /-- INVMIX (R146). -/
  | invmix
  /-- EXPAND with the declared key length KLEN and buffer length BLEN (R162). -/
  | expand (klen blen : Byte)
  /-- SELECT with its field FAM: 0 confusion, 1 diffusion, 2 key schedule, 3 all (R106). -/
  | select (fam : Byte)
deriving DecidableEq, Repr

end Sys2Proof
end

