-- ==== Sys2Proof/WellFormed.lean ====
section
/-!
DEFINITION. Which commands have a legal encoding: the legal values of the free fields of 30_encoding.md R83.
-/

namespace Sys2Proof

/-- The legal field values of R83. RKSEL: 0x00 to 0x0A and 0xFF. FAM: 0x00 to 0x03. KLEN and BLEN: any. -/
def wellFormed (i : Instr) : Bool :=
  match i with
  | .sub => true
  | .invsub => true
  | .ark rksel => rksel.toNat ≤ 10 || rksel.toNat == 255
  | .shr => true
  | .invshr => true
  | .mix => true
  | .invmix => true
  | .expand _ _ => true
  | .select fam => fam.toNat ≤ 3

end Sys2Proof
end

