-- ==== Sys2Proof/Decode.lean ====
section
/-!
DEFINITION. The decoder of 30_encoding.md R84, total on 32-bit words and rejecting by name, and after it the encoder of
R80, R82 and R86.
-/

namespace Sys2Proof

/-- Why a word is illegal: the five cases of 30_encoding.md R85. -/
inductive IllegalWord where
  /-- The field Z is not zero. -/
  | reservedBitsSet
  /-- OP is one of the 247 unassigned values. -/
  | unassignedOpcode
  /-- A or B is not zero where R82 requires 0. -/
  | unusedFieldSet
  /-- ARK with RKSEL in 0x0B to 0xFE. -/
  | roundKeySelector
  /-- SELECT with FAM in 0x04 to 0xFF. -/
  | familySelector
deriving DecidableEq, Repr

/-- OP, bits 7:0 (R80). -/
def fieldOp (w : Word) : Byte := w.extractLsb' 0 8

/-- A, bits 15:8 (R80). -/
def fieldA (w : Word) : Byte := w.extractLsb' 8 8

/-- B, bits 23:16 (R80). -/
def fieldB (w : Word) : Byte := w.extractLsb' 16 8

/-- Z, bits 31:24 (R80). -/
def fieldZ (w : Word) : Byte := w.extractLsb' 24 8

/-- A command without operands: A and B must be 0 (R84). -/
def decodePlain (a b : Byte) (i : Instr) : Except IllegalWord Instr :=
  if a ≠ 0#8 ∨ b ≠ 0#8 then .error .unusedFieldSet else .ok i

/-- `Decode(w)` of R84, with the reason where the word is illegal. -/
def decode (w : Word) : Except IllegalWord Instr :=
  let op := fieldOp w
  let a := fieldA w
  let b := fieldB w
  if fieldZ w ≠ 0#8 then .error .reservedBitsSet
  else if op = 0x01#8 then decodePlain a b .sub
  else if op = 0x02#8 then decodePlain a b .invsub
  else if op = 0x11#8 then decodePlain a b .shr
  else if op = 0x12#8 then decodePlain a b .invshr
  else if op = 0x13#8 then decodePlain a b .mix
  else if op = 0x14#8 then decodePlain a b .invmix
  else if op = 0x03#8 then
    if b ≠ 0#8 then .error .unusedFieldSet
    else if a ≤ 0x0A#8 ∨ a = 0xFF#8 then .ok (.ark a)
    else .error .roundKeySelector
  else if op = 0x21#8 then .ok (.expand a b)
  else if op = 0x30#8 then
    if b ≠ 0#8 then .error .unusedFieldSet
    else if a ≤ 0x03#8 then .ok (.select a)
    else .error .familySelector
  else .error .unassignedOpcode

/-- The assembled word `{8'h00, B, A, OP}` (R86). -/
def assemble (op a b : Byte) : Word := 0x00#8 ++ b ++ a ++ op

/-- The word of a command (R82, R86). -/
def encode (i : Instr) : Word :=
  match i with
  | .sub => assemble 0x01#8 0#8 0#8
  | .invsub => assemble 0x02#8 0#8 0#8
  | .ark rksel => assemble 0x03#8 rksel 0#8
  | .shr => assemble 0x11#8 0#8 0#8
  | .invshr => assemble 0x12#8 0#8 0#8
  | .mix => assemble 0x13#8 0#8 0#8
  | .invmix => assemble 0x14#8 0#8 0#8
  | .expand klen blen => assemble 0x21#8 klen blen
  | .select fam => assemble 0x30#8 fam 0#8

/-- The word whose bits `nbits - 1` to 0 are those of `w` and whose other bits are 0, as spec/opcode_table.json numbers
a command's bits. -/
def tableWord (nbits w : Nat) : Word := BitVec.ofNat 32 (w % 2 ^ nbits)

/-- What the decoder reads from a word of the opcode table. -/
def decodeTableWord (nbits w : Nat) : Option Instr :=
  match decode (tableWord nbits w) with
  | .ok i => some i
  | .error _ => none

end Sys2Proof
end

