-- ==== Sys2Proof/Config.lean ====
section
/-!
DEFINITION. The two parameters of an implementation that the spec leaves open (00_scope.md R9, 93_implementation_defined.md
U3 and U4). Neither has a body, so no proof can learn a value of it: what is proved holds for every build and platform.
-/

namespace Sys2Proof

/-- Bits 3:1 of `TIERS`: bit `i` says that the datapath of variant Tier`i+1` is present (R9, R24). Bit 0 of `TIERS`
(Scalar) is always 1 and is added by `Machine.capTiers`. Log entry 3. -/
opaque Config.vecTiers : BitVec 3

/-- `BASE`, the platform address of offset 0 of the register window (R9, R50). Log entry 4. -/
opaque Config.base : Nat

end Sys2Proof
end

