-- ==== Sys2Proof/Machine/State.lean ====
section
/-!
DEFINITION. The state of the block, every piece of 10_state.md R20 to R36 as plain data, with the model's own record of
ReadUnwritten and the model's own view of the host port. INVENTORY.md lists each field with its rule and reset value.
-/

namespace Sys2Proof.Machine

/-- The reasons a run counts as faulted. No step of this hardware stops, since every command completes and no access can
leave the block stuck (R237); so `step` never answers a fault, and the one fault of the spec is recorded in
`State.modelFault`. -/
inductive Fault where
  /-- ReadUnwritten (R219): a host read of an unwritten data-register word, or a command that reads an unwritten STATE,
  RKEY or KEY word, or EK while EKV = 0. Recorded by `recordUnwritten`; the run goes on, as the hardware does. A claim
  about the values of such a run is unsafe unless it holds whatever the register contained (log entries 1 and 2). -/
  | readUnwritten
deriving DecidableEq, Repr

/-- The reasons for refusing a command. -/
inductive Refusal where
  /-- Raised by an arm of `exec` for a command without a meaning; no arm raises it now. Safe: nothing can be proved about
  a command that has no meaning. -/
  | notModelled (mnemonic : String)
deriving DecidableEq, Repr

/-- The three primitive families (R16, R26): 0 confusion, 1 diffusion, 2 key schedule. -/
inductive Family where
  | confusion
  | diffusion
  | keySchedule
deriving DecidableEq, Repr

/-- The four implementation variants (R3, R100), V = 0 to 3. -/
inductive Variant where
  | scalar
  | tier1
  | tier2
  | tier3
deriving DecidableEq, Repr

/-- The values STATUS.ERR can hold (R23, R200). Codes 5 to 15 are never written, so there is no constructor for them. -/
inductive ErrCode where
  | ok
  | invalidKeySize
  | invalidExpandedKeyBufferSize
  | unsupportedVariant
  | illegalCommand
deriving DecidableEq, Repr

/-- BIND (R26): per family, `none` while unbound, else the variant it is bound to. -/
structure Bindings where
  confusion : Option Variant
  diffusion : Option Variant
  keySchedule : Option Variant
deriving DecidableEq, Repr

/-- A host-writable 16-byte data register (R27 to R29) with the written mark of each of its four words (R32). -/
structure DataReg where
  bytes : Block
  written : Quad Bool
deriving DecidableEq, Repr

/-- What reaches the host port, in the port's total order (R60, R61). -/
inductive PortEvent where
  /-- A host read of `bits` bits at window offset `off`. -/
  | read (off : BitVec 9) (bits : Nat)
  /-- A host write of `bits` bits at window offset `off`. `v` is the 32-bit value of a 32-bit write; a write of another
  width is refused whole (R54), so its data needs no field (log entry 8). -/
  | write (off : BitVec 9) (bits : Nat) (v : Word)
  /-- The platform's reset event (R230). -/
  | reset
deriving DecidableEq, Repr

/-- The port's answer to the access just serviced (R52, R53, R56). -/
inductive PortResponse where
  /-- The data of a read. -/
  | readData (v : Word)
  /-- A write was performed (or, for a read-only register, ignored without an error). -/
  | writeDone
  /-- The error response to a rejected access. -/
  | busError (off : BitVec 9)
deriving DecidableEq, Repr

/-- The state of the block. -/
structure State where
  /-- STATUS.ERR, the result of the last command (R23, R201). -/
  err : ErrCode
  /-- STATUS.EKV: EK holds an expanded key (R23). -/
  ekv : Bool
  /-- Bits 3:1 of CAP, the present vector tiers; constant (R24). Bit 0 is hard-wired to 1 in `capTiers`. -/
  vecTiers : BitVec 3
  /-- OVERRIDE.TIER (R25). -/
  overrideTier : BitVec 3
  /-- BIND (R26). -/
  bindings : Bindings
  /-- The register STATE (R27). -/
  stateReg : DataReg
  /-- The register RKEY (R28). -/
  rkeyReg : DataReg
  /-- The register KEY (R29). -/
  keyReg : DataReg
  /-- The register EK (R31); its written mark is `ekv` (R32). -/
  ekReg : ExpandedKey
  /-- The model's record of ReadUnwritten, never cleared (R219). -/
  modelFault : Option Fault
  /-- The accesses the port has still to service, first one first (R60, R61). The model's own input field. -/
  port : List PortEvent
  /-- The port's response in the step just taken. The model's own output field. -/
  resp : Option PortResponse
deriving DecidableEq, Repr

/-- A data register after reset: no word written (R36). Its contents are unspecified; the model names zero (log entry 1). -/
def DataReg.unwritten : DataReg :=
  { bytes := Quad.replicate (Quad.replicate 0#8), written := Quad.replicate false }

/-- The block right after reset, for the present tiers `vecTiers` (R36, R230, R231). -/
def State.resetWith (vecTiers : BitVec 3) : State :=
  { err := .ok
    ekv := false
    vecTiers := vecTiers
    overrideTier := 0#3
    bindings := { confusion := none, diffusion := none, keySchedule := none }
    stateReg := DataReg.unwritten
    rkeyReg := DataReg.unwritten
    keyReg := DataReg.unwritten
    ekReg := ExpandedKey.ofRoundKeys (fun _ => Quad.replicate (Quad.replicate 0#8))
    modelFault := none
    port := []
    resp := none }

/-- The block right after reset. -/
def State.reset : State := State.resetWith Config.vecTiers

end Sys2Proof.Machine
end

