-- ==== Sys2Proof/Machine/Flags.lean ====
section
/-!
DEFINITION. The codes and layouts of the control and status registers (10_state.md R22 to R26, 20_memory.md R52) and the two
ways a command ends its write of STATUS.ERR. The block has no other flags (R34).
-/

namespace Sys2Proof.Machine

/-- The code of an error in STATUS.ERR (R200). -/
def errBits (e : ErrCode) : BitVec 4 :=
  match e with
  | .ok => 0#4
  | .invalidKeySize => 1#4
  | .invalidExpandedKeyBufferSize => 2#4
  | .unsupportedVariant => 3#4
  | .illegalCommand => 4#4

/-- The code V of a variant (R100). -/
def variantBits (v : Variant) : BitVec 2 :=
  match v with
  | .scalar => 0#2
  | .tier1 => 1#2
  | .tier2 => 2#2
  | .tier3 => 3#2

/-- Parameter `TIERS` as CAP holds it: bit 0, Scalar, is always 1 (R24). -/
def capTiers (s : State) : BitVec 4 := s.vecTiers ++ 1#1

/-- STATUS as a host reads it (R23, R52). -/
def statusWord (s : State) : Word :=
  0#23 ++ BitVec.ofBool s.ekv ++ 0#4 ++ errBits s.err

/-- CAP as a host reads it (R24, R52). -/
def capWord (s : State) : Word := (capTiers s).zeroExtend 32

/-- OVERRIDE as a host reads it (R25, R52). -/
def overrideWord (s : State) : Word := s.overrideTier.zeroExtend 32

/-- One family's byte of BIND without its reserved bits: B above V, V reading 0 while B = 0 (R26). -/
def bindField (b : Option Variant) : BitVec 3 :=
  match b with
  | some v => 1#1 ++ variantBits v
  | none => 0#3

/-- BIND as a host reads it (R26, R52). -/
def bindWord (s : State) : Word :=
  0#13 ++ bindField s.bindings.keySchedule ++ 0#5 ++ bindField s.bindings.diffusion ++ 0#5 ++ bindField s.bindings.confusion

/-- `raise E()` inside a command (R13, R202): STATUS.ERR takes E's code and nothing else changes. This is all there is to
taking an exception on this block: no trap, no saved state, no handler, and so no return from one (R209, R210). -/
def raiseError (e : ErrCode) (s : State) : State := { s with err := e }

/-- `STATUS.ERR <- 0` of a command that completes (R105, R201). -/
def completeCommand (s : State) : State := { s with err := .ok }

end Sys2Proof.Machine
end

