-- ==== Sys2Proof/Machine/Ops.lean ====
section
/-!
DEFINITION. The named operations over the block's registers: byte order within a register word (20_memory.md R55), the
written marks and ReadUnwritten (10_state.md R32, 60_exceptions.md R219), the bindings and `Bind` (40_dispatcher.md R100 to
R103), and the shell of the command cycle that every family command shares (R105).
-/

namespace Sys2Proof.Machine

/-- The 32-bit value of four bytes, byte 0 least significant (R55). -/
def packWord (c : Column) : Word := c.e3 ++ c.e2 ++ c.e1 ++ c.e0

/-- The four bytes of a 32-bit value, byte `k` being bits `8k+7:8k` (R53, R55). -/
def unpackWord (w : Word) : Column :=
  ⟨w.extractLsb' 0 8, w.extractLsb' 8 8, w.extractLsb' 16 8, w.extractLsb' 24 8⟩

/-- All four words of a data register are written (R32). -/
def isWritten (r : DataReg) : Bool := r.written.e0 && r.written.e1 && r.written.e2 && r.written.e3

/-- A read of operands that are all written (`written`) or not: ReadUnwritten is recorded, and never cleared (R219). The
value read is what the register holds (log entry 2). -/
def recordUnwritten (written : Bool) (s : State) : State :=
  if written then s else { s with modelFault := some .readUnwritten }

/-- A host write of word `j` of a data register: its four bytes, and its written mark (R53, R32). -/
def setRegWord (r : DataReg) (j : Fin 4) (v : Word) : DataReg :=
  { bytes := r.bytes.set j (unpackWord v), written := r.written.set j true }

/-- A command's write of all 16 bytes of STATE, which sets all four marks (R27, R32). -/
def writeStateReg (b : Block) (s : State) : State :=
  { s with stateReg := { bytes := b, written := Quad.replicate true } }

/-- A successful EXPAND's one write of all 176 bytes of EK, with EKV (R31, R162). -/
def writeExpandedKey (e : ExpandedKey) (s : State) : State :=
  { s with ekReg := e, ekv := true }

/-- The binding of a family (R26). -/
def bindingOf (b : Bindings) (f : Family) : Option Variant :=
  match f with
  | .confusion => b.confusion
  | .diffusion => b.diffusion
  | .keySchedule => b.keySchedule

/-- `BIND.<f>_V <- v; BIND.<f>_B <- 1` (R102). -/
def setBinding (f : Family) (v : Variant) (s : State) : State :=
  match f with
  | .confusion => { s with bindings := { s.bindings with confusion := some v } }
  | .diffusion => { s with bindings := { s.bindings with diffusion := some v } }
  | .keySchedule => { s with bindings := { s.bindings with keySchedule := some v } }

/-- Variant `v` is present in `tiers` (R101). -/
def variantPresent (tiers : BitVec 4) (v : Variant) : Bool := tiers.getLsbD (variantBits v).toNat

/-- The highest present tier, `max { i in 0..3 : TIERS[i] = 1 }` (R102); Scalar is always present (R24). -/
def highestTier (tiers : BitVec 4) : Variant :=
  if variantPresent tiers .tier3 then .tier3
  else if variantPresent tiers .tier2 then .tier2
  else if variantPresent tiers .tier1 then .tier1
  else .scalar

/-- A forced tier: that variant when it is present (R102). -/
def forcedTier (tiers : BitVec 4) (v : Variant) : Option Variant :=
  if variantPresent tiers v then some v else none

/-- The variant the probe chooses under OVERRIDE.TIER = `t`, or `none` where the forced tier is absent or does not exist
(R25, R102). -/
def chooseVariant (tiers : BitVec 4) (t : BitVec 3) : Option Variant :=
  match t.toNat with
  | 0 => some (highestTier tiers)
  | 1 => forcedTier tiers .scalar
  | 2 => forcedTier tiers .tier1
  | 3 => forcedTier tiers .tier2
  | 4 => forcedTier tiers .tier3
  | _ => none

/-- `Bind(f)` (R102): `some` for Ok, `none` for Fail, which writes nothing. A bound family is not probed again (R103). -/
def bindFamily (f : Family) (s : State) : Option State :=
  match bindingOf s.bindings f with
  | some _ => some s
  | none =>
    match chooseVariant (capTiers s) s.overrideTier with
    | some v => some (setBinding f v s)
    | none => none

/-- The command cycle of a command of family `f` (R105): bind, then `Perform`, then STATUS.ERR. A binding made here stays
when `perform` raises. -/
def familyCommand (f : Family) (perform : State → Except ErrCode State) (s : State) : Host.Outcome State Fault Refusal :=
  match bindFamily f s with
  | none => .next (raiseError .unsupportedVariant s)
  | some s1 =>
    match perform s1 with
    | .error e => .next (raiseError e s1)
    | .ok s2 => .next (completeCommand s2)

/-- `Perform` of a command that replaces STATE by a function of STATE (R123, R124, R143 to R146): every read of STATE is of
its value at the start of the command (R15). -/
def performOnState (f : Block → Block) (s : State) : Except ErrCode State :=
  .ok (writeStateReg (f s.stateReg.bytes) (recordUnwritten (isWritten s.stateReg) s))

end Sys2Proof.Machine
end

