-- ==== Sys2Proof/Machine/Operands.lean ====
section
/-!
DEFINITION. The operand fields of the commands (30_encoding.md R81): RKSEL of ARK, KLEN and BLEN of EXPAND, FAM of SELECT.
-/

namespace Sys2Proof.Machine

/-- The round key RKSEL selects, and whether it is written (R125, R32): RKEY, or `EK[16k..16k+15]`. `none` for the values
0x0B to 0xFE, which are illegal (R85). -/
def roundKeyOperand (rksel : Byte) (s : State) : Option (Block × Bool) :=
  if rksel = 0xFF#8 then some (s.rkeyReg.bytes, isWritten s.rkeyReg)
  else if h : rksel.toNat < 11 then some (s.ekReg.roundKey ⟨rksel.toNat, h⟩, s.ekv)
  else none

/-- The size checks of EXPAND in their order (R162, R208): the error to raise, or `none` where both sizes are right. -/
def expandSizeError (klen blen : Byte) : Option ErrCode :=
  if klen ≠ 16#8 then some .invalidKeySize
  else if blen ≠ 176#8 then some .invalidExpandedKeyBufferSize
  else none

/-- The families FAM names, in the order they are bound (R106). `none` for FAM > 3, which is illegal (R85). -/
def selectedFamilies (fam : Byte) : Option (List Family) :=
  if fam = 0#8 then some [.confusion]
  else if fam = 1#8 then some [.diffusion]
  else if fam = 2#8 then some [.keySchedule]
  else if fam = 3#8 then some [.confusion, .diffusion, .keySchedule]
  else none

end Sys2Proof.Machine
end

