-- ==== Sys2Proof/Machine/Confusion.lean ====
section
/-!
DEFINITION. The confusion unit: SUB, INVSUB and ARK (41_confusion.md R123 to R127).
-/

namespace Sys2Proof.Machine

/-- One function on each byte of a Block, no byte moving (R127). -/
def mapBytes (f : Byte → Byte) (b : Block) : Block := b.map (Quad.map f)

/-- `⊕` of two 16-byte values, byte by byte (R12, R125). -/
def xorBlock (a b : Block) : Block := Quad.zipWith (Quad.zipWith (fun x y => x ^^^ y)) a b

/-- SUB: `STATE[i] <- SBOX[STATE[i]]` (R123). -/
def execSub (s : State) : Host.Outcome State Fault Refusal :=
  familyCommand .confusion (performOnState (mapBytes sbox)) s

/-- INVSUB: `STATE[i] <- INV_SBOX[STATE[i]]` (R124). -/
def execInvsub (s : State) : Host.Outcome State Fault Refusal :=
  familyCommand .confusion (performOnState (mapBytes invSbox)) s

/-- `Perform ARK` with round key `k` (R125): STATE and the round key are read, STATE is written. -/
def performArk (k : Block) (kWritten : Bool) (s : State) : Except ErrCode State :=
  .ok (writeStateReg (xorBlock s.stateReg.bytes k) (recordUnwritten (isWritten s.stateReg && kWritten) s))

/-- ARK: `STATE[i] <- STATE[i] ⊕ K[i]` (R125). An RKSEL that does not decode is IllegalCommand, raised before any bind
(R85, R203); `decode` never gives such a command (log entry 13). -/
def execArk (rksel : Byte) (s : State) : Host.Outcome State Fault Refusal :=
  match roundKeyOperand rksel s with
  | none => .next (raiseError .illegalCommand s)
  | some (k, kWritten) => familyCommand .confusion (performArk k kWritten) s

end Sys2Proof.Machine
end

