-- ==== Sys2Proof/Machine/Field.lean ====
section
/-!
DEFINITION. The GF(2^8) arithmetic of the diffusion unit and of the round constants (42_diffusion.md R140 to R142).
-/

namespace Sys2Proof.Machine

/-- `xtime(b)`, multiplication by 2 (R140). -/
def xtime (b : Byte) : Byte :=
  if b.getLsbD 7 then (b <<< 1) ^^^ 0x1B#8 else b <<< 1

/-- The loop of R141 with `n` rounds to go: bit `8 - n` of `c` is the next one looked at. -/
def gmulLoop (c : Byte) : Nat → Byte → Byte → Byte
  | 0, acc, _ => acc
  | n + 1, acc, p => gmulLoop c n (if c.getLsbD (7 - n) then acc ^^^ p else acc) (xtime p)

/-- `gmul(c, b)`, the field product (R141): `k` runs over 0 to 7. -/
def gmul (c b : Byte) : Byte := gmulLoop c 8 0x00#8 b

end Sys2Proof.Machine
end

