-- ==== Sys2Proof/Machine/Diffusion.lean ====
section
/-!
DEFINITION. The diffusion unit: SHR, INVSHR, MIX and INVMIX (42_diffusion.md R143 to R148). Column `c`, row `r` of a Block
is byte `r + 4c` (00_scope.md R14); index arithmetic on `Fin 4` is modulo 4.
-/

namespace Sys2Proof.Machine

/-- SHR's permutation: `STATE[r + 4c] <- S[r + 4((c + r) mod 4)]` (R143). -/
def shiftRows (b : Block) : Block :=
  Quad.ofFn fun c => Quad.ofFn fun r => (b.get (c + r)).get r

/-- INVSHR's permutation: `STATE[r + 4c] <- S[r + 4((c - r) mod 4)]` (R144). -/
def invShiftRows (b : Block) : Block :=
  Quad.ofFn fun c => Quad.ofFn fun r => (b.get (c - r)).get r

/-- MIX on one column (R145). -/
def mixColumn (b : Column) : Column :=
  ⟨gmul 2#8 b.e0 ^^^ gmul 3#8 b.e1 ^^^ b.e2 ^^^ b.e3,
   b.e0 ^^^ gmul 2#8 b.e1 ^^^ gmul 3#8 b.e2 ^^^ b.e3,
   b.e0 ^^^ b.e1 ^^^ gmul 2#8 b.e2 ^^^ gmul 3#8 b.e3,
   gmul 3#8 b.e0 ^^^ b.e1 ^^^ b.e2 ^^^ gmul 2#8 b.e3⟩

/-- INVMIX on one column (R146). -/
def invMixColumn (b : Column) : Column :=
  ⟨gmul 14#8 b.e0 ^^^ gmul 11#8 b.e1 ^^^ gmul 13#8 b.e2 ^^^ gmul 9#8 b.e3,
   gmul 9#8 b.e0 ^^^ gmul 14#8 b.e1 ^^^ gmul 11#8 b.e2 ^^^ gmul 13#8 b.e3,
   gmul 13#8 b.e0 ^^^ gmul 9#8 b.e1 ^^^ gmul 14#8 b.e2 ^^^ gmul 11#8 b.e3,
   gmul 11#8 b.e0 ^^^ gmul 13#8 b.e1 ^^^ gmul 9#8 b.e2 ^^^ gmul 14#8 b.e3⟩

/-- MIX on the four columns, each on its own (R145). -/
def mixColumns (b : Block) : Block := b.map mixColumn

/-- INVMIX on the four columns, each on its own (R146). -/
def invMixColumns (b : Block) : Block := b.map invMixColumn

/-- SHR (R143). -/
def execShr (s : State) : Host.Outcome State Fault Refusal :=
  familyCommand .diffusion (performOnState shiftRows) s

/-- INVSHR (R144). -/
def execInvshr (s : State) : Host.Outcome State Fault Refusal :=
  familyCommand .diffusion (performOnState invShiftRows) s

/-- MIX (R145). -/
def execMix (s : State) : Host.Outcome State Fault Refusal :=
  familyCommand .diffusion (performOnState mixColumns) s

/-- INVMIX (R146). -/
def execInvmix (s : State) : Host.Outcome State Fault Refusal :=
  familyCommand .diffusion (performOnState invMixColumns) s

end Sys2Proof.Machine
end

