-- ==== Sys2Proof/Machine/Dispatcher.lean ====
section
/-!
DEFINITION. The capability dispatcher's own command: SELECT (40_dispatcher.md R106).
-/

namespace Sys2Proof.Machine

/-- Binds each family in order; a family whose bind fails is left unbound and the later ones are still attempted. The
flag says that every bind was Ok (R106). -/
def bindEach : List Family → State → State × Bool
  | [], s => (s, true)
  | f :: fs, s =>
    match bindFamily f s with
    | some s1 => bindEach fs s1
    | none => ((bindEach fs s).1, false)

/-- The end of SELECT: UnsupportedVariant where a bind failed, else ERR = 0 (R106). Bindings made on the way stay (R202). -/
def finishSelect (r : State × Bool) : State :=
  if r.2 then completeCommand r.1 else raiseError .unsupportedVariant r.1

/-- SELECT (R106). A FAM that does not decode is IllegalCommand (R85, R203); `decode` never gives such a command (log
entry 13). -/
def execSelect (fam : Byte) (s : State) : Host.Outcome State Fault Refusal :=
  match selectedFamilies fam with
  | none => .next (raiseError .illegalCommand s)
  | some fams => .next (finishSelect (bindEach fams s))

end Sys2Proof.Machine
end

