-- ==== Sys2Proof/Machine/KeySchedule.lean ====
section
/-!
DEFINITION. The key-schedule unit: EXPAND (43_key_schedule.md R160 to R165).
-/

namespace Sys2Proof.Machine

/-- `RotWord([a0,a1,a2,a3]) = [a1,a2,a3,a0]` (R161). -/
def rotWord (w : Column) : Column := ⟨w.e1, w.e2, w.e3, w.e0⟩

/-- `SubWord`: SBOX on each byte (R161). -/
def subWord (w : Column) : Column := w.map sbox

/-- `⊕` of two words, byte by byte (R161). -/
def xorColumn (a b : Column) : Column := Quad.zipWith (fun x y => x ^^^ y) a b

/-- `temp` of R162 for word index `i`, from `W[i-1]`. -/
def scheduleTemp (i : Nat) (prev : Column) : Column :=
  if i % 4 = 0 then
    let t := subWord (rotWord prev)
    { t with e0 := t.e0 ^^^ rcon (i / 4 - 1) }
  else prev

/-- From `W[i-4..i-1]` to `W[i-3..i]`: the loop body of R162. -/
def scheduleStep (i : Nat) (w : Quad Column) : Quad Column :=
  ⟨w.e1, w.e2, w.e3, xorColumn w.e0 (scheduleTemp i w.e3)⟩

/-- `W[n..n+3]`, from the four words `W[0..3]` of the key (R162). -/
def scheduleWindow (key : Block) : Nat → Quad Column
  | 0 => key
  | n + 1 => scheduleStep (n + 4) (scheduleWindow key n)

/-- The 44 words, as the eleven round keys `W[4k..4k+3]` (R162, R164). -/
def expandKey (key : Block) : ExpandedKey :=
  ExpandedKey.ofRoundKeys fun k => scheduleWindow key (4 * k.val)

/-- `Perform EXPAND` (R162): the size checks first, then KEY is read and EK and EKV are written in one step (R163). -/
def performExpand (klen blen : Byte) (s : State) : Except ErrCode State :=
  match expandSizeError klen blen with
  | some e => .error e
  | none => .ok (writeExpandedKey (expandKey s.keyReg.bytes) (recordUnwritten (isWritten s.keyReg) s))

/-- EXPAND (R162). -/
def execExpand (klen blen : Byte) (s : State) : Host.Outcome State Fault Refusal :=
  familyCommand .keySchedule (performExpand klen blen) s

end Sys2Proof.Machine
end

