-- ==== Sys2Proof/Machine/Dispatch.lean ====
section
/-!
DEFINITION. One arm per command: what `Execute` does with a decoded command (40_dispatcher.md R105).
-/

namespace Sys2Proof.Machine

/-- The whole effect of a decoded command: bind, perform, write STATUS.ERR, as one atomic step (R105, R233). -/
def exec (i : Instr) (s : State) : Host.Outcome State Fault Refusal :=
  match i with
  | .sub => Sys2Proof.Machine.execSub s
  | .invsub => Sys2Proof.Machine.execInvsub s
  | .ark rksel => Sys2Proof.Machine.execArk rksel s
  | .shr => Sys2Proof.Machine.execShr s
  | .invshr => Sys2Proof.Machine.execInvshr s
  | .mix => Sys2Proof.Machine.execMix s
  | .invmix => Sys2Proof.Machine.execInvmix s
  | .expand klen blen => Sys2Proof.Machine.execExpand klen blen s
  | .select fam => Sys2Proof.Machine.execSelect fam s

end Sys2Proof.Machine
end

