-- ==== Sys2Proof/Machine/Window.lean ====
section
/-!
DEFINITION. The register window and the host port: the map of 20_memory.md R51, `RegRead` (R52), `RegWrite` (R53), BusError
(R56), the platform addresses of the window (R50) and the reset event (70_reset_and_hazards.md R230).
-/

namespace Sys2Proof.Machine

/-- The registers of the window (R51). -/
inductive WindowReg where
  | cmd
  | status
  | cap
  | override
  | bind
  | stateWord (j : Fin 4)
  | rkeyWord (j : Fin 4)
  | keyWord (j : Fin 4)
  | ekWord (i : Fin 44)
deriving DecidableEq, Repr

/-- The register at an offset (R51). `none` where the offset is unmapped or not a multiple of 4 (R54). -/
def windowReg (off : BitVec 9) : Option WindowReg :=
  if off.toNat % 4 ≠ 0 then none
  else if off.toNat = 0x000 then some .cmd
  else if off.toNat = 0x004 then some .status
  else if off.toNat = 0x008 then some .cap
  else if off.toNat = 0x00C then some .override
  else if off.toNat = 0x010 then some .bind
  else if h : 0x020 ≤ off.toNat ∧ off.toNat < 0x030 then some (.stateWord ⟨(off.toNat - 0x020) / 4, by omega⟩)
  else if h : 0x030 ≤ off.toNat ∧ off.toNat < 0x040 then some (.rkeyWord ⟨(off.toNat - 0x030) / 4, by omega⟩)
  else if h : 0x040 ≤ off.toNat ∧ off.toNat < 0x050 then some (.keyWord ⟨(off.toNat - 0x040) / 4, by omega⟩)
  else if h : 0x100 ≤ off.toNat ∧ off.toNat < 0x1B0 then some (.ekWord ⟨(off.toNat - 0x100) / 4, by omega⟩)
  else none

/-- The register an access reaches; `none` for an access that gets BusError (R54, R56). -/
def acceptedReg (off : BitVec 9) (bits : Nat) : Option WindowReg :=
  if bits = 32 then windowReg off else none

/-- The value of a register of the window, and whether it is written (R52). CMD reads 0 (R22). -/
def windowRead (r : WindowReg) (s : State) : Word × Bool :=
  match r with
  | .cmd => (0#32, true)
  | .status => (statusWord s, true)
  | .cap => (capWord s, true)
  | .override => (overrideWord s, true)
  | .bind => (bindWord s, true)
  | .stateWord j => (packWord (s.stateReg.bytes.get j), s.stateReg.written.get j)
  | .rkeyWord j => (packWord (s.rkeyReg.bytes.get j), s.rkeyReg.written.get j)
  | .keyWord j => (packWord (s.keyReg.bytes.get j), s.keyReg.written.get j)
  | .ekWord i => (packWord (s.ekReg.word i), s.ekv)

/-- The port answers (R52, R53, R56). -/
def respond (r : PortResponse) (s : State) : State := { s with resp := some r }

/-- `RegRead(off)` for an access of `bits` bits (R52). -/
def regRead (off : BitVec 9) (bits : Nat) (s : State) : State :=
  match acceptedReg off bits with
  | none => respond (.busError off) s
  | some r => respond (.readData (windowRead r s).1) (recordUnwritten (windowRead r s).2 s)

/-- `Execute(w)` (R105): an illegal word raises IllegalCommand before any bind and changes nothing else (R203). -/
def execute (w : Word) (s : State) : Host.Outcome State Fault Refusal :=
  match decode w with
  | .error _ => .next (raiseError .illegalCommand s)
  | .ok i => exec i s

/-- A write of `v` to a register of the window (R53). -/
def windowWrite (r : WindowReg) (v : Word) (s : State) : Host.Outcome State Fault Refusal :=
  match r with
  | .cmd => execute v s
  | .status => .next s
  | .cap => .next s
  | .override => .next { s with overrideTier := v.extractLsb' 0 3 }
  | .bind => .next s
  | .stateWord j => .next { s with stateReg := setRegWord s.stateReg j v }
  | .rkeyWord j => .next { s with rkeyReg := setRegWord s.rkeyReg j v }
  | .keyWord j => .next { s with keyReg := setRegWord s.keyReg j v }
  | .ekWord _ => .next s

/-- `RegWrite(off, v)` for an access of `bits` bits (R53). The response is set first, so that a command is exactly the last
thing a CMD write does; no command reads or writes it. -/
def regWrite (off : BitVec 9) (bits : Nat) (v : Word) (s : State) : Host.Outcome State Fault Refusal :=
  match acceptedReg off bits with
  | none => .next (respond (.busError off) s)
  | some r => windowWrite r v (respond .writeDone s)

/-- The reset event (R230): every register at its reset value. TIERS is constant (R24), the accesses still waiting at the
port wait on, and the record of ReadUnwritten is never cleared (R219) (log entry 7). -/
def resetEvent (s : State) : State :=
  { State.resetWith s.vecTiers with modelFault := s.modelFault, port := s.port }

/-- Servicing what stands first at the port (R60, R61). -/
def service (e : PortEvent) (s : State) : Host.Outcome State Fault Refusal :=
  match e with
  | .read off bits => .next (regRead off bits s)
  | .write off bits v => regWrite off bits v s
  | .reset => .next (resetEvent s)

/-- The state from which the first of the waiting accesses is serviced: the access has left the list and no response is
given yet. -/
def takeAccess (rest : List PortEvent) (s : State) : State := { s with port := rest, resp := none }

/-- One step of the block: the port services one access in its total order (R60, R61). With no access waiting the block
idles: it does nothing of its own (R50, R218) (log entry 5). -/
def serviceNext (s : State) : Host.Outcome State Fault Refusal :=
  match s.port with
  | [] => .next (takeAccess [] s)
  | e :: rest => service e (takeAccess rest s)

/-- The window offset of a platform address, where it lies in the window (R50). -/
def windowOffset (addr : Nat) : Option (BitVec 9) :=
  if Config.base ≤ addr ∧ addr < Config.base + 0x200 then some (BitVec.ofNat 9 (addr - Config.base)) else none

/-- `MemRead(addr, n)` as it reaches the port (R13). `none`: the access is not one of the block's. -/
def memRead (addr n : Nat) : Option PortEvent :=
  (windowOffset addr).map fun off => .read off (8 * n)

/-- `MemWrite(addr, n, v)` as it reaches the port (R13). -/
def memWrite (addr n : Nat) (v : Word) : Option PortEvent :=
  (windowOffset addr).map fun off => .write off (8 * n) v

end Sys2Proof.Machine
end

