-- ==== Sys2Proof/Machine/Step.lean ====
section
/-!
DEFINITION. One step of the machine, and how a command of the opcode table is placed where the next step takes it.
-/

namespace Sys2Proof.Machine

/-- One step: the port services the next access (R60, R61, R233). -/
def step (s : State) : Host.Outcome State Fault Refusal := serviceNext s

/-- `s` with a host write of the command word to CMD standing first at the port (R22, log entry 5). -/
def State.withFetchWord (s : State) (nbits w : Nat) : State :=
  { s with port := .write 0x000#9 32 (tableWord nbits w) :: s.port }

end Sys2Proof.Machine
end

