-- ==== Sys2Proof/Safety.lean ====
section
/-!
DEFINITION. The terms the statements are written in: a clean run, when a family can be bound, which family a command
belongs to, the matrix view of a Block, the recurrence of the key schedule, the invariants, and the relations that compare
two states.
-/

namespace Sys2Proof.Machine

/-- No ReadUnwritten has been recorded (R219): the run so far never read a data register that was not written. -/
abbrev Clean (s : State) : Prop := s.modelFault = none

/-- OVERRIDE.TIER = `t` lets an unbound family bind (R102): it is 0, or 1 to 4 naming a present tier. -/
def tierSelectable (tiers : BitVec 4) (t : BitVec 3) : Bool :=
  t.toNat == 0 || (t.toNat ≤ 4 && tiers.getLsbD (t.toNat - 1))

/-- `Bind(f)` returns Ok: the family is bound, or the probe can choose a variant (R102, R103). -/
def familyAvailable (f : Family) (s : State) : Bool :=
  (bindingOf s.bindings f).isSome || tierSelectable (capTiers s) s.overrideTier

/-- The family a command binds before it runs (R82); SELECT has none. -/
def commandFamily (i : Instr) : Option Family :=
  match i with
  | .sub => some .confusion
  | .invsub => some .confusion
  | .ark _ => some .confusion
  | .shr => some .diffusion
  | .invshr => some .diffusion
  | .mix => some .diffusion
  | .invmix => some .diffusion
  | .expand _ _ => some .keySchedule
  | .select _ => none

/-- FAM of SELECT names family `f` (R106). -/
def famNames (fam : Byte) (f : Family) : Bool :=
  fam.toNat == 3 ||
    (match f with
     | .confusion => fam.toNat == 0
     | .diffusion => fam.toNat == 1
     | .keySchedule => fam.toNat == 2)

/-- After `s`, family `f` is bound in `t` as `Bind(f)` binds it: a binding it had stays, else the probe's choice (R102). -/
def BoundIn (f : Family) (s t : State) : Prop :=
  (∀ v, bindingOf s.bindings f = some v → bindingOf t.bindings f = some v) ∧
  (bindingOf s.bindings f = none →
    bindingOf t.bindings f = chooseVariant (capTiers s) s.overrideTier ∧ (bindingOf t.bindings f).isSome)

/-- Between `s` and `t` only family `f` was bound. -/
def BindsOnly (f : Family) (s t : State) : Prop :=
  BoundIn f s t ∧ ∀ g, g ≠ f → bindingOf t.bindings g = bindingOf s.bindings g

/-- What a read of operands that are all written (`w`) or not leaves in the record (R219). -/
def RecordsRead (w : Bool) (s t : State) : Prop :=
  t.modelFault = if w then s.modelFault else some .readUnwritten

/-- What no command writes: CAP, OVERRIDE, RKEY, KEY (R24, R25, R28, R29), and the port. -/
def KeepsHostRegisters (s t : State) : Prop :=
  t.vecTiers = s.vecTiers ∧ t.overrideTier = s.overrideTier ∧ t.rkeyReg = s.rkeyReg ∧ t.keyReg = s.keyReg ∧
  t.port = s.port ∧ t.resp = s.resp

/-- The frame of a command that writes STATE and nothing else but ERR and its family's binding: EK, EKV and the host's
registers keep their values, and every word of STATE is written (R32). -/
def StateCommandFrame (f : Family) (s t : State) : Prop :=
  t.err = .ok ∧ t.stateReg.written = Quad.replicate true ∧ t.ekv = s.ekv ∧ t.ekReg = s.ekReg ∧
  BindsOnly f s t ∧ KeepsHostRegisters s t

/-- Row `r`, column `c` of a Block: byte `r + 4c` (R14). -/
def matrixAt (b : Block) (r c : Fin 4) : Byte := Block.byte b ⟨r.val + 4 * c.val, by omega⟩

/-- The words of `e` follow the recurrence of R162 from `key`, written out byte by byte. -/
def IsScheduleOf (key : Block) (e : ExpandedKey) : Prop :=
  (∀ i : Fin 4, e.word ⟨i.val, by omega⟩ = key.get i) ∧
  ∀ i (h : i < 44), 4 ≤ i →
    let p := e.word ⟨i - 1, by omega⟩
    let q := e.word ⟨i - 4, by omega⟩
    e.word ⟨i, h⟩ =
      if i % 4 = 0 then
        ⟨q.e0 ^^^ (sbox p.e1 ^^^ rcon (i / 4 - 1)), q.e1 ^^^ sbox p.e2, q.e2 ^^^ sbox p.e3, q.e3 ^^^ sbox p.e0⟩
      else ⟨q.e0 ^^^ p.e0, q.e1 ^^^ p.e1, q.e2 ^^^ p.e2, q.e3 ^^^ p.e3⟩

/-- Invariant: while EKV = 1, EK is a whole schedule of some key, never a part of one (R23, R31, R163). -/
def EkHoldsSchedule (s : State) : Prop := s.ekv = true → ∃ key, IsScheduleOf key s.ekReg

/-- Invariant: a family is only ever bound to a variant that is present (R102). -/
def BoundVariantsPresent (s : State) : Prop :=
  ∀ f v, bindingOf s.bindings f = some v → (capTiers s).getLsbD (variantBits v).toNat = true

/-- Two data registers with the same marks, and the same bytes in every written word (R32). -/
def WrittenWordsAgree (a b : DataReg) : Prop :=
  a.written = b.written ∧ ∀ j, a.written.get j = true → a.bytes.get j = b.bytes.get j

/-- Two states that differ at most in what unwritten data registers contain (R32, U1, U2). -/
def AgreeUpToUnwritten (s s' : State) : Prop :=
  s.err = s'.err ∧ s.ekv = s'.ekv ∧ s.vecTiers = s'.vecTiers ∧ s.overrideTier = s'.overrideTier ∧
  s.bindings = s'.bindings ∧ s.modelFault = s'.modelFault ∧ s.port = s'.port ∧ s.resp = s'.resp ∧
  WrittenWordsAgree s.stateReg s'.stateReg ∧ WrittenWordsAgree s.rkeyReg s'.rkeyReg ∧
  WrittenWordsAgree s.keyReg s'.keyReg ∧ (s.ekv = true → s.ekReg = s'.ekReg)

/-- Two states that differ at most in which variants are present and bound, and in the response just given: the same
families are bound, and OVERRIDE lets the others bind in both or in neither (R104). -/
def SameUpToVariants (s s' : State) : Prop :=
  s.err = s'.err ∧ s.ekv = s'.ekv ∧ s.overrideTier = s'.overrideTier ∧ s.stateReg = s'.stateReg ∧
  s.rkeyReg = s'.rkeyReg ∧ s.keyReg = s'.keyReg ∧ s.ekReg = s'.ekReg ∧ s.modelFault = s'.modelFault ∧ s.port = s'.port ∧
  (∀ f, (bindingOf s.bindings f).isSome = (bindingOf s'.bindings f).isSome) ∧
  tierSelectable (capTiers s) s.overrideTier = tierSelectable (capTiers s') s'.overrideTier

end Sys2Proof.Machine
end

