-- ==== Sys2Proof/Certificates/Slice0/Obligations.lean ====
section
/-!
DEFINITION. The statements for the provers. Each docstring names the rules of spec/ it is about. Register names are the
spec's. A statement about a command's result gives its next state for every state in which the command's family is
available (bound, or bindable under OVERRIDE and TIERS). In such a statement `RecordsRead` says that an operand not written
is recorded as ReadUnwritten and the command goes on with what the register holds: the going on is the model's choice (log
entry 2). `step` services the list of waiting accesses, and `resp` holds the response: the model's own input and output
fields (log entries 5 and 6).
-/

open Sys2Proof Sys2Proof.Machine

/-! ### Encoding -/

/-- R83: one word of each command, written out from the table of matches (sanity). -/
def Obligations.CommandWordsDecode : Prop :=
  decode 0x00000001#32 = .ok .sub ∧ decode 0x00000002#32 = .ok .invsub ∧
  decode 0x00000A03#32 = .ok (.ark 10#8) ∧ decode 0x0000FF03#32 = .ok (.ark 255#8) ∧
  decode 0x00000011#32 = .ok .shr ∧ decode 0x00000012#32 = .ok .invshr ∧
  decode 0x00000013#32 = .ok .mix ∧ decode 0x00000014#32 = .ok .invmix ∧
  decode 0x00B01021#32 = .ok (.expand 16#8 176#8) ∧ decode 0x00000330#32 = .ok (.select 3#8)

/-- R80, R82, R83, R86: every well-formed command, with every operand value its encoding admits, decodes back to itself. -/
def Obligations.DecodeOfEncodeIsTheCommand : Prop :=
  ∀ i, wellFormed i = true → decode (encode i) = .ok i

/-- R80, R85, R86: every legal word is the assembled word of the one well-formed command it decodes to. -/
def Obligations.EveryLegalWordIsAnEncoding : Prop :=
  ∀ w i, decode w = .ok i → wellFormed i = true ∧ encode i = w

/-- R83: the match and mask of each command, and the legal values of its free fields. -/
def Obligations.DecodeFollowsMatchAndMask : Prop :=
  ∀ w : Word,
    (decode w = .ok .sub ↔ w &&& 0xFFFFFFFF#32 = 0x00000001#32) ∧
    (decode w = .ok .invsub ↔ w &&& 0xFFFFFFFF#32 = 0x00000002#32) ∧
    (∀ k : Byte, decode w = .ok (.ark k) ↔
      w &&& 0xFFFF00FF#32 = 0x00000003#32 ∧ w.extractLsb' 8 8 = k ∧ (k.toNat ≤ 10 ∨ k.toNat = 255)) ∧
    (decode w = .ok .shr ↔ w &&& 0xFFFFFFFF#32 = 0x00000011#32) ∧
    (decode w = .ok .invshr ↔ w &&& 0xFFFFFFFF#32 = 0x00000012#32) ∧
    (decode w = .ok .mix ↔ w &&& 0xFFFFFFFF#32 = 0x00000013#32) ∧
    (decode w = .ok .invmix ↔ w &&& 0xFFFFFFFF#32 = 0x00000014#32) ∧
    (∀ k b : Byte, decode w = .ok (.expand k b) ↔
      w &&& 0xFF0000FF#32 = 0x00000021#32 ∧ w.extractLsb' 8 8 = k ∧ w.extractLsb' 16 8 = b) ∧
    (∀ k : Byte, decode w = .ok (.select k) ↔
      w &&& 0xFFFF00FF#32 = 0x00000030#32 ∧ w.extractLsb' 8 8 = k ∧ k.toNat ≤ 3)

/-- R85, R203: exactly the listed words are illegal, 0x00000000 among them; executing one sets ERR to 4 and changes nothing
else; every other word is one of the nine commands. -/
def Obligations.IllegalWordsOnlySetErr : Prop :=
  (∀ w : Word,
    let op := (w.extractLsb' 0 8).toNat
    let a := (w.extractLsb' 8 8).toNat
    let b := (w.extractLsb' 16 8).toNat
    let z := (w.extractLsb' 24 8).toNat
    ((∀ i, decode w ≠ .ok i) ↔
      (op = 0x00 ∨ (0x04 ≤ op ∧ op ≤ 0x10) ∨ (0x15 ≤ op ∧ op ≤ 0x20) ∨ (0x22 ≤ op ∧ op ≤ 0x2F) ∨ 0x31 ≤ op) ∨
      z ≠ 0 ∨
      ((op = 0x01 ∨ op = 0x02 ∨ op = 0x11 ∨ op = 0x12 ∨ op = 0x13 ∨ op = 0x14) ∧ (a ≠ 0 ∨ b ≠ 0)) ∨
      ((op = 0x03 ∨ op = 0x30) ∧ b ≠ 0) ∨
      (op = 0x03 ∧ 0x0B ≤ a ∧ a ≤ 0xFE) ∨
      (op = 0x30 ∧ 0x04 ≤ a))) ∧
  (∀ i, decode 0x00000000#32 ≠ .ok i) ∧
  (∀ w s, (∀ i, decode w ≠ .ok i) →
    execute w s = .next { s with err := .illegalCommand } ∧ errBits .illegalCommand = 4#4)

/-! ### The port and the register window -/

/-- R22, R53, R105, R233: a host write of a legal word to CMD is one step, and that step is the command, run on the state in
which the access has been taken from the port and acknowledged. The list of waiting accesses and the response are the
model's own fields (log entries 5 and 6). -/
def Obligations.StepRunsTheDecodedCommand : Prop :=
  ∀ s w rest i, s.port = .write 0x000#9 32 w :: rest → decode w = .ok i →
    step s = exec i { s with port := rest, resp := some .writeDone }

/-- R233, R237: every step and every command answers a next state: none faults, none is refused, none hangs. That a step
with no access waiting idles, and that a run goes on after ReadUnwritten, are the model's choices (log entries 5 and 2). -/
def Obligations.EveryStepAnswersNext : Prop :=
  (∀ s, ∃ t, step s = .next t) ∧ ∀ i s, ∃ t, exec i s = .next t

/-- R36, and R231 that the spec derives from it: what a host reads right after reset and which words are written. The
contents of the data registers are the model's choice (log entry 1) and are not stated. -/
def Obligations.ResetLeavesControlState : Prop :=
  let s := State.reset
  windowRead .cmd s = (0#32, true) ∧ windowRead .status s = (0#32, true) ∧
  windowRead .cap s = ((Config.vecTiers ++ 1#1 : BitVec 4).zeroExtend 32, true) ∧
  windowRead .override s = (0#32, true) ∧ windowRead .bind s = (0#32, true) ∧
  (∀ f, bindingOf s.bindings f = none) ∧ s.err = .ok ∧ s.ekv = false ∧
  (∀ j : Fin 4, s.stateReg.written.get j = false ∧ s.rkeyReg.written.get j = false ∧ s.keyReg.written.get j = false) ∧
  Clean s

/-- R230, R231, R36: the reset event returns every register to its reset value in one step, whatever the state; TIERS is
constant. That the waiting accesses and the record of ReadUnwritten outlive it is the model's choice (log entry 7). -/
def Obligations.ResetEventReturnsToReset : Prop :=
  ∀ s rest, s.port = .reset :: rest →
    ∃ t, step s = .next t ∧ t.err = .ok ∧ t.ekv = false ∧ t.overrideTier = 0#3 ∧
      (∀ f, bindingOf t.bindings f = none) ∧ t.vecTiers = s.vecTiers ∧
      (∀ j : Fin 4, t.stateReg.written.get j = false ∧ t.rkeyReg.written.get j = false ∧ t.keyReg.written.get j = false) ∧
      t.port = rest ∧ t.modelFault = s.modelFault

/-- R52, R55: the value of every 32-bit read of a mapped register, and that a read changes no register. For an unwritten
data word the read is recorded as ReadUnwritten; that it then answers what the register holds is the model's choice (log
entry 2). -/
def Obligations.ReadReturnsRegister : Prop :=
  ∀ s off rest, s.port = .read off 32 :: rest →
    let answers := fun (v : Word) (written : Bool) =>
      step s = .next { s with
        port := rest
        resp := some (.readData v)
        modelFault := if written then s.modelFault else some .readUnwritten }
    (off = 0x000#9 → answers 0#32 true) ∧
    (off = 0x004#9 → answers (0#23 ++ BitVec.ofBool s.ekv ++ 0#4 ++ errBits s.err) true) ∧
    (off = 0x008#9 → answers ((s.vecTiers ++ 1#1 : BitVec 4).zeroExtend 32) true) ∧
    (off = 0x00C#9 → answers (s.overrideTier.zeroExtend 32) true) ∧
    (off = 0x010#9 → answers (0#13 ++ bindField s.bindings.keySchedule ++ 0#5 ++ bindField s.bindings.diffusion ++
      0#5 ++ bindField s.bindings.confusion) true) ∧
    (∀ j : Fin 4, off.toNat = 0x020 + 4 * j.val → answers
      (s.stateReg.bytes.byte ⟨4 * j.val + 3, by omega⟩ ++ s.stateReg.bytes.byte ⟨4 * j.val + 2, by omega⟩ ++
       s.stateReg.bytes.byte ⟨4 * j.val + 1, by omega⟩ ++ s.stateReg.bytes.byte ⟨4 * j.val, by omega⟩)
      (s.stateReg.written.get j)) ∧
    (∀ j : Fin 4, off.toNat = 0x030 + 4 * j.val → answers
      (s.rkeyReg.bytes.byte ⟨4 * j.val + 3, by omega⟩ ++ s.rkeyReg.bytes.byte ⟨4 * j.val + 2, by omega⟩ ++
       s.rkeyReg.bytes.byte ⟨4 * j.val + 1, by omega⟩ ++ s.rkeyReg.bytes.byte ⟨4 * j.val, by omega⟩)
      (s.rkeyReg.written.get j)) ∧
    (∀ j : Fin 4, off.toNat = 0x040 + 4 * j.val → answers
      (s.keyReg.bytes.byte ⟨4 * j.val + 3, by omega⟩ ++ s.keyReg.bytes.byte ⟨4 * j.val + 2, by omega⟩ ++
       s.keyReg.bytes.byte ⟨4 * j.val + 1, by omega⟩ ++ s.keyReg.bytes.byte ⟨4 * j.val, by omega⟩)
      (s.keyReg.written.get j)) ∧
    (∀ i : Fin 44, off.toNat = 0x100 + 4 * i.val → answers
      (s.ekReg.byte ⟨4 * i.val + 3, by omega⟩ ++ s.ekReg.byte ⟨4 * i.val + 2, by omega⟩ ++
       s.ekReg.byte ⟨4 * i.val + 1, by omega⟩ ++ s.ekReg.byte ⟨4 * i.val, by omega⟩) s.ekv)

/-- R53, R55, R25: the effect of every 32-bit write to a mapped register: CMD executes the word, OVERRIDE takes bits 2:0, a
data word takes the four bytes and its mark, and the read-only registers ignore it. The response is the model's own field
(log entry 6). -/
def Obligations.WriteEffectByRegister : Prop :=
  ∀ s off v rest, s.port = .write off 32 v :: rest →
    let s0 : State := { s with port := rest, resp := some .writeDone }
    (off = 0x000#9 → step s = execute v s0) ∧
    (off = 0x004#9 ∨ off = 0x008#9 ∨ off = 0x010#9 → step s = .next s0) ∧
    (∀ i : Fin 44, off.toNat = 0x100 + 4 * i.val → step s = .next s0) ∧
    (off = 0x00C#9 → step s = .next { s0 with overrideTier := v.extractLsb' 0 3 }) ∧
    (∀ j : Fin 4, off.toNat = 0x020 + 4 * j.val → ∃ r, step s = .next { s0 with stateReg := r } ∧
      r.written = s.stateReg.written.set j true ∧
      (∀ k : Fin 4, r.bytes.byte ⟨4 * j.val + k.val, by omega⟩ = v.extractLsb' (8 * k.val) 8) ∧
      ∀ i, i ≠ j → r.bytes.get i = s.stateReg.bytes.get i) ∧
    (∀ j : Fin 4, off.toNat = 0x030 + 4 * j.val → ∃ r, step s = .next { s0 with rkeyReg := r } ∧
      r.written = s.rkeyReg.written.set j true ∧
      (∀ k : Fin 4, r.bytes.byte ⟨4 * j.val + k.val, by omega⟩ = v.extractLsb' (8 * k.val) 8) ∧
      ∀ i, i ≠ j → r.bytes.get i = s.rkeyReg.bytes.get i) ∧
    (∀ j : Fin 4, off.toNat = 0x040 + 4 * j.val → ∃ r, step s = .next { s0 with keyReg := r } ∧
      r.written = s.keyReg.written.set j true ∧
      (∀ k : Fin 4, r.bytes.byte ⟨4 * j.val + k.val, by omega⟩ = v.extractLsb' (8 * k.val) 8) ∧
      ∀ i, i ≠ j → r.bytes.get i = s.keyReg.bytes.get i)

/-- R54, R56, R207: an access at a misaligned or unmapped offset or of another width gets the error response and changes no
register, no flag and no written mark. -/
def Obligations.BusErrorChangesNothing : Prop :=
  ∀ s off bits v rest,
    off.toNat % 4 ≠ 0 ∨ bits ≠ 32 ∨ (0x014 ≤ off.toNat ∧ off.toNat ≤ 0x01C) ∨
      (0x050 ≤ off.toNat ∧ off.toNat ≤ 0x0FC) ∨ (0x1B0 ≤ off.toNat ∧ off.toNat ≤ 0x1FC) →
    (s.port = .read off bits :: rest ∨ s.port = .write off bits v :: rest) →
    step s = .next { s with port := rest, resp := some (.busError off) }

/-- R53, R52, R55, R57: a 32-bit value written to a word of STATE, RKEY or KEY is what the next read of that word answers,
with no ReadUnwritten recorded by it. The list of accesses and the response are the model's own fields (log entries 5 and
6). -/
def Obligations.ReadAfterWriteReturnsValue : Prop :=
  ∀ s off v rest, s.port = .write off 32 v :: .read off 32 :: rest →
    off.toNat % 4 = 0 → 0x020 ≤ off.toNat → off.toNat < 0x050 →
    ∃ t u, step s = .next t ∧ step t = .next u ∧ u.resp = some (.readData v) ∧ u.port = rest ∧
      u.modelFault = s.modelFault

/-- R50, R13: offset `off` of the window is at BASE + off, for every BASE; no other platform address is the block's; a
4-byte platform access is the 32-bit port access at that offset. That every other address is left to the platform is log
entry 4. -/
def Obligations.WindowIsAtBase : Prop :=
  (∀ off : BitVec 9, windowOffset (Config.base + off.toNat) = some off) ∧
  (∀ addr, (addr < Config.base ∨ Config.base + 0x200 ≤ addr) → windowOffset addr = none) ∧
  (∀ off : BitVec 9, memRead (Config.base + off.toNat) 4 = some (.read off 32)) ∧
  (∀ (off : BitVec 9) v, memWrite (Config.base + off.toNat) 4 v = some (.write off 32 v))

/-! ### The dispatcher -/

/-- R102: `Bind(f)`. A bound family is left as it is; OVERRIDE.TIER = 0 takes the highest present tier; 1 to 4 takes the
forced tier when it is present; else Fail. A successful bind writes that family's binding and nothing else. -/
def Obligations.BindFollowsOverrideAndTiers : Prop :=
  ∀ f s,
    (∀ v, bindingOf s.bindings f = some v → bindFamily f s = some s) ∧
    (bindingOf s.bindings f = none → s.overrideTier = 0#3 →
      ∃ v t, bindFamily f s = some t ∧ bindingOf t.bindings f = some v ∧
        (capTiers s).getLsbD (variantBits v).toNat = true ∧
        (∀ w, (capTiers s).getLsbD (variantBits w).toNat = true → (variantBits w).toNat ≤ (variantBits v).toNat)) ∧
    (∀ v, bindingOf s.bindings f = none → s.overrideTier.toNat = (variantBits v).toNat + 1 →
      (capTiers s).getLsbD (variantBits v).toNat = true →
      ∃ t, bindFamily f s = some t ∧ bindingOf t.bindings f = some v) ∧
    (∀ v, bindingOf s.bindings f = none → s.overrideTier.toNat = (variantBits v).toNat + 1 →
      (capTiers s).getLsbD (variantBits v).toNat = false → bindFamily f s = none) ∧
    (bindingOf s.bindings f = none → 5 ≤ s.overrideTier.toNat → bindFamily f s = none) ∧
    (∀ t, bindFamily f s = some t →
      t = { s with bindings := t.bindings } ∧ ∀ g, g ≠ f → bindingOf t.bindings g = bindingOf s.bindings g)

/-- R102, R24, from which the spec derives its R108: with OVERRIDE.TIER = 0 `Bind(f)` always returns Ok; with
TIERS = 0b0001 the automatic choice is Scalar. -/
def Obligations.AutomaticSelectionNeverFails : Prop :=
  ∀ f s, s.overrideTier = 0#3 →
    (∃ t, bindFamily f s = some t) ∧
    (capTiers s = 0b0001#4 → bindingOf s.bindings f = none →
      ∃ t, bindFamily f s = some t ∧ bindingOf t.bindings f = some .scalar)

/-- R102, R24, from which the spec derives its R109: 1 always binds V = 0; 2, 3 and 4 bind an unbound family exactly when
Tier1, Tier2 or Tier3 is present; 5, 6 and 7 never do, and then a command of the family raises UnsupportedVariant. -/
def Obligations.ForcedTierBinding : Prop :=
  ∀ f s, bindingOf s.bindings f = none →
    (s.overrideTier = 1#3 → ∃ t, bindFamily f s = some t ∧ bindingOf t.bindings f = some .scalar) ∧
    (s.overrideTier = 2#3 → ((∃ t, bindFamily f s = some t) ↔ (capTiers s).getLsbD 1 = true)) ∧
    (s.overrideTier = 3#3 → ((∃ t, bindFamily f s = some t) ↔ (capTiers s).getLsbD 2 = true)) ∧
    (s.overrideTier = 4#3 → ((∃ t, bindFamily f s = some t) ↔ (capTiers s).getLsbD 3 = true)) ∧
    (s.overrideTier = 5#3 ∨ s.overrideTier = 6#3 ∨ s.overrideTier = 7#3 →
      bindFamily f s = none ∧
      ∀ i, wellFormed i = true → commandFamily i = some f → exec i s = .next { s with err := .unsupportedVariant })

/-- R103: a binding lasts until reset, whatever step the block takes, writes to OVERRIDE included; and a command of a bound
family never raises UnsupportedVariant, whatever OVERRIDE holds. -/
def Obligations.BindingLastsUntilReset : Prop :=
  (∀ s t f v, step s = .next t → (∀ rest, s.port ≠ .reset :: rest) →
    bindingOf s.bindings f = some v → bindingOf t.bindings f = some v) ∧
  (∀ i f v s t, commandFamily i = some f → bindingOf s.bindings f = some v → exec i s = .next t →
    t.err ≠ .unsupportedVariant)

/-- R102: from every state in which each bound variant is present, a step gives such a state. -/
def Obligations.BoundVariantsStayPresent : Prop :=
  ∀ s t, BoundVariantsPresent s → step s = .next t → BoundVariantsPresent t

/-- R36, R102: right after reset no family is bound, so every bound variant is present, whatever TIERS is. -/
def Obligations.ResetBindsNoAbsentVariant : Prop :=
  BoundVariantsPresent State.reset ∧ ∀ tiers, BoundVariantsPresent (State.resetWith tiers)

/-- R106: SELECT, when every family FAM names is available, binds each of them, leaves the others, sets ERR = 0 and changes
nothing else. On families already bound it changes nothing, whatever OVERRIDE holds. -/
def Obligations.SelectBindsNamedFamilies : Prop :=
  ∀ fam s, fam.toNat ≤ 3 → (∀ f, famNames fam f = true → familyAvailable f s = true) →
    ∃ t, exec (.select fam) s = .next t ∧ t = { s with err := .ok, bindings := t.bindings } ∧
      ∀ f, (famNames fam f = true → BoundIn f s t) ∧
        (famNames fam f = false → bindingOf t.bindings f = bindingOf s.bindings f)

/-- R106, R204: SELECT, when a family FAM names is not available, raises UnsupportedVariant and changes nothing else. That
SELECT ALL then binds none of the unbound families is R106's own inference from R102. -/
def Obligations.SelectOfUnavailableFamilyFails : Prop :=
  ∀ fam s f, fam.toNat ≤ 3 → famNames fam f = true → familyAvailable f s = false →
    exec (.select fam) s = .next { s with err := .unsupportedVariant }

/-- R105, R204: a command of a family that is not available raises UnsupportedVariant and changes nothing else: the
primitive is not run, STATE and EK keep their values, and the family stays unbound. -/
def Obligations.UnavailableFamilyRunsNothing : Prop :=
  ∀ i f s, wellFormed i = true → commandFamily i = some f → familyAvailable f s = false →
    exec i s = .next { s with err := .unsupportedVariant }

/-- R85, R203: ARK with RKSEL in 0x0B to 0xFE, and SELECT with FAM above 3, raise IllegalCommand and change nothing else,
also as commands handed straight to `exec` (the model's choice, log entry 13). -/
def Obligations.IllegalOperandFieldsSetErr : Prop :=
  ∀ i s, wellFormed i = false → exec i s = .next { s with err := .illegalCommand }

/-! ### The confusion unit -/

/-- R123: SUB replaces every byte of STATE by its SBOX entry. -/
def Obligations.SubSubstitutesEveryByte : Prop :=
  ∀ s, familyAvailable .confusion s = true →
    ∃ t, exec .sub s = .next t ∧ StateCommandFrame .confusion s t ∧ RecordsRead (isWritten s.stateReg) s t ∧
      ∀ i : Fin 16, t.stateReg.bytes.byte i = sbox (s.stateReg.bytes.byte i)

/-- R124: INVSUB replaces every byte of STATE by its INV_SBOX entry. -/
def Obligations.InvsubSubstitutesEveryByte : Prop :=
  ∀ s, familyAvailable .confusion s = true →
    ∃ t, exec .invsub s = .next t ∧ StateCommandFrame .confusion s t ∧ RecordsRead (isWritten s.stateReg) s t ∧
      ∀ i : Fin 16, t.stateReg.bytes.byte i = invSbox (s.stateReg.bytes.byte i)

/-- R125, R164: ARK k, for k in 0 to 10, XORs bytes EK[16k] to EK[16k+15] into STATE. -/
def Obligations.ArkXorsExpandedRoundKey : Prop :=
  ∀ (k : Fin 11) s, familyAvailable .confusion s = true →
    ∃ t, exec (.ark (BitVec.ofNat 8 k.val)) s = .next t ∧ StateCommandFrame .confusion s t ∧
      RecordsRead (isWritten s.stateReg && s.ekv) s t ∧
      ∀ i : Fin 16, t.stateReg.bytes.byte i =
        s.stateReg.bytes.byte i ^^^ s.ekReg.byte ⟨16 * k.val + i.val, by omega⟩

/-- R125: ARK RKEY (RKSEL = 0xFF) XORs RKEY into STATE. -/
def Obligations.ArkXorsRkey : Prop :=
  ∀ s, familyAvailable .confusion s = true →
    ∃ t, exec (.ark 0xFF#8) s = .next t ∧ StateCommandFrame .confusion s t ∧
      RecordsRead (isWritten s.stateReg && isWritten s.rkeyReg) s t ∧
      ∀ i : Fin 16, t.stateReg.bytes.byte i = s.stateReg.bytes.byte i ^^^ s.rkeyReg.bytes.byte i

/-- R122: the two tables are inverse to each other, and SBOX has no fixed point (sanity). -/
def Obligations.SubstitutionTablesAreInverse : Prop :=
  ∀ b : Byte, invSbox (sbox b) = b ∧ sbox (invSbox b) = b ∧ sbox b ≠ b

/-- R126: ARK with one round key, applied twice, restores STATE. -/
def Obligations.ArkTwiceRestoresState : Prop :=
  ∀ k s, wellFormed (.ark k) = true → familyAvailable .confusion s = true →
    ∃ t u, exec (.ark k) s = .next t ∧ exec (.ark k) t = .next u ∧ u.stateReg.bytes = s.stateReg.bytes

/-- INVSUB after SUB, and SUB after INVSUB, restore STATE: the inference from R122 among the corner cases of R124. -/
def Obligations.SubAndInvsubUndoEachOther : Prop :=
  ∀ s, familyAvailable .confusion s = true →
    (∃ t u, exec .sub s = .next t ∧ exec .invsub t = .next u ∧ u.stateReg.bytes = s.stateReg.bytes) ∧
    (∃ t u, exec .invsub s = .next t ∧ exec .sub t = .next u ∧ u.stateReg.bytes = s.stateReg.bytes)

/-- R127: SUB, INVSUB and ARK act on each byte index on its own, whatever variants are bound: byte `i` of STATE after depends
only on byte `i` of STATE before and, for ARK, on byte `i` of the round key. -/
def Obligations.ConfusionActsBytewise : Prop :=
  ∀ c s s' t t' (i : Fin 16), commandFamily c = some .confusion → wellFormed c = true →
    familyAvailable .confusion s = true → familyAvailable .confusion s' = true →
    exec c s = .next t → exec c s' = .next t' →
    s.stateReg.bytes.byte i = s'.stateReg.bytes.byte i →
    (c = .ark 0xFF#8 → s.rkeyReg.bytes.byte i = s'.rkeyReg.bytes.byte i) →
    (∀ k : Fin 11, c = .ark (BitVec.ofNat 8 k.val) →
      s.ekReg.byte ⟨16 * k.val + i.val, by omega⟩ = s'.ekReg.byte ⟨16 * k.val + i.val, by omega⟩) →
    t.stateReg.bytes.byte i = t'.stateReg.bytes.byte i

/-! ### The diffusion unit -/

/-- R143: SHR rotates row r of STATE left by r. -/
def Obligations.ShrRotatesRowsLeft : Prop :=
  ∀ s, familyAvailable .diffusion s = true →
    ∃ t, exec .shr s = .next t ∧ StateCommandFrame .diffusion s t ∧ RecordsRead (isWritten s.stateReg) s t ∧
      ∀ r c : Fin 4, matrixAt t.stateReg.bytes r c =
        matrixAt s.stateReg.bytes r ⟨(c.val + r.val) % 4, by omega⟩

/-- R144: INVSHR rotates row r of STATE right by r. -/
def Obligations.InvshrRotatesRowsRight : Prop :=
  ∀ s, familyAvailable .diffusion s = true →
    ∃ t, exec .invshr s = .next t ∧ StateCommandFrame .diffusion s t ∧ RecordsRead (isWritten s.stateReg) s t ∧
      ∀ r c : Fin 4, matrixAt t.stateReg.bytes r c =
        matrixAt s.stateReg.bytes r ⟨(c.val + 4 - r.val) % 4, by omega⟩

/-- R145: MIX replaces every column by its product with the matrix 2 3 1 1 / 1 2 3 1 / 1 1 2 3 / 3 1 1 2. -/
def Obligations.MixMultipliesColumns : Prop :=
  ∀ s, familyAvailable .diffusion s = true →
    ∃ t, exec .mix s = .next t ∧ StateCommandFrame .diffusion s t ∧ RecordsRead (isWritten s.stateReg) s t ∧
      ∀ c : Fin 4,
        let b := fun r => matrixAt s.stateReg.bytes r c
        matrixAt t.stateReg.bytes 0 c = gmul 2#8 (b 0) ^^^ gmul 3#8 (b 1) ^^^ b 2 ^^^ b 3 ∧
        matrixAt t.stateReg.bytes 1 c = b 0 ^^^ gmul 2#8 (b 1) ^^^ gmul 3#8 (b 2) ^^^ b 3 ∧
        matrixAt t.stateReg.bytes 2 c = b 0 ^^^ b 1 ^^^ gmul 2#8 (b 2) ^^^ gmul 3#8 (b 3) ∧
        matrixAt t.stateReg.bytes 3 c = gmul 3#8 (b 0) ^^^ b 1 ^^^ b 2 ^^^ gmul 2#8 (b 3)

/-- R146: INVMIX replaces every column by its product with the matrix of rows 14 11 13 9 / 9 14 11 13 / 13 9 14 11 /
11 13 9 14. -/
def Obligations.InvmixMultipliesColumns : Prop :=
  ∀ s, familyAvailable .diffusion s = true →
    ∃ t, exec .invmix s = .next t ∧ StateCommandFrame .diffusion s t ∧ RecordsRead (isWritten s.stateReg) s t ∧
      ∀ c : Fin 4,
        let b := fun r => matrixAt s.stateReg.bytes r c
        matrixAt t.stateReg.bytes 0 c = gmul 14#8 (b 0) ^^^ gmul 11#8 (b 1) ^^^ gmul 13#8 (b 2) ^^^ gmul 9#8 (b 3) ∧
        matrixAt t.stateReg.bytes 1 c = gmul 9#8 (b 0) ^^^ gmul 14#8 (b 1) ^^^ gmul 11#8 (b 2) ^^^ gmul 13#8 (b 3) ∧
        matrixAt t.stateReg.bytes 2 c = gmul 13#8 (b 0) ^^^ gmul 9#8 (b 1) ^^^ gmul 14#8 (b 2) ^^^ gmul 11#8 (b 3) ∧
        matrixAt t.stateReg.bytes 3 c = gmul 11#8 (b 0) ^^^ gmul 13#8 (b 1) ^^^ gmul 9#8 (b 2) ^^^ gmul 14#8 (b 3)

/-- R140, R141: xtime shifts and reduces by 0x1B; a product is the sum of the repeated doublings that the bits of the
constant select; and the products by the block's constants are the listed ones (sanity). -/
def Obligations.FieldProductsExpand : Prop :=
  ∀ b : Byte,
    xtime b = (if b.getLsbD 7 = true then (b <<< 1) ^^^ 0x1B#8 else b <<< 1) ∧
    (∀ c : Byte,
      let term := fun k (p : Byte) => if c.getLsbD k = true then p else 0#8
      let x2 := xtime b
      let x4 := xtime x2
      let x8 := xtime x4
      let x16 := xtime x8
      let x32 := xtime x16
      let x64 := xtime x32
      gmul c b = term 0 b ^^^ term 1 x2 ^^^ term 2 x4 ^^^ term 3 x8 ^^^ term 4 x16 ^^^ term 5 x32 ^^^ term 6 x64 ^^^
        term 7 (xtime x64)) ∧
    gmul 1#8 b = b ∧ gmul 2#8 b = xtime b ∧ gmul 3#8 b = xtime b ^^^ b ∧
    gmul 9#8 b = xtime (xtime (xtime b)) ^^^ b ∧
    gmul 11#8 b = xtime (xtime (xtime b)) ^^^ xtime b ^^^ b ∧
    gmul 13#8 b = xtime (xtime (xtime b)) ^^^ xtime (xtime b) ^^^ b ∧
    gmul 14#8 b = xtime (xtime (xtime b)) ^^^ xtime (xtime b) ^^^ xtime b

/-- R142: gmul gives 0 on 0, is commutative, and distributes over ⊕ on both sides. The spec marks the last two as general
knowledge. -/
def Obligations.FieldLaws : Prop :=
  (∀ c : Byte, gmul c 0#8 = 0#8) ∧ (∀ a b : Byte, gmul a b = gmul b a) ∧
  (∀ c a b : Byte, gmul c (a ^^^ b) = gmul c a ^^^ gmul c b) ∧
  (∀ c d b : Byte, gmul (c ^^^ d) b = gmul c b ^^^ gmul d b)

/-- R147: INVSHR undoes SHR and SHR undoes INVSHR; INVMIX undoes MIX and MIX undoes INVMIX. The last is R147's own
inference from R145 and R146. -/
def Obligations.DiffusionInverseLaws : Prop :=
  ∀ s, familyAvailable .diffusion s = true →
    (∃ t u, exec .shr s = .next t ∧ exec .invshr t = .next u ∧ u.stateReg.bytes = s.stateReg.bytes) ∧
    (∃ t u, exec .invshr s = .next t ∧ exec .shr t = .next u ∧ u.stateReg.bytes = s.stateReg.bytes) ∧
    (∃ t u, exec .mix s = .next t ∧ exec .invmix t = .next u ∧ u.stateReg.bytes = s.stateReg.bytes) ∧
    (∃ t u, exec .invmix s = .next t ∧ exec .mix t = .next u ∧ u.stateReg.bytes = s.stateReg.bytes)

/-- Four SHRs are the identity on STATE, and INVSHR equals three SHRs: the inferences among the corner cases of R143 and
R144. -/
def Obligations.ShrHasOrderFour : Prop :=
  ∀ s, familyAvailable .diffusion s = true →
    ∃ t1 t2 t3 t4 u, exec .shr s = .next t1 ∧ exec .shr t1 = .next t2 ∧ exec .shr t2 = .next t3 ∧
      exec .shr t3 = .next t4 ∧ exec .invshr s = .next u ∧
      t4.stateReg.bytes = s.stateReg.bytes ∧ u.stateReg.bytes = t3.stateReg.bytes

/-- R148: SHR and INVSHR move bytes only within a row, and MIX and INVMIX mix bytes only within a column, whatever variants
are bound: a row (or column) of STATE after depends only on that row (or column) of STATE before. -/
def Obligations.DiffusionStaysInRowsAndColumns : Prop :=
  ∀ i s s' t t', familyAvailable .diffusion s = true → familyAvailable .diffusion s' = true →
    exec i s = .next t → exec i s' = .next t' →
    (i = .shr ∨ i = .invshr → ∀ r : Fin 4,
      (∀ c, matrixAt s.stateReg.bytes r c = matrixAt s'.stateReg.bytes r c) →
      ∀ c, matrixAt t.stateReg.bytes r c = matrixAt t'.stateReg.bytes r c) ∧
    (i = .mix ∨ i = .invmix → ∀ c : Fin 4,
      (∀ r, matrixAt s.stateReg.bytes r c = matrixAt s'.stateReg.bytes r c) →
      ∀ r, matrixAt t.stateReg.bytes r c = matrixAt t'.stateReg.bytes r c)

/-! ### The key-schedule unit -/

/-- R162, R164: EXPAND 16, 176 writes the 44 words of the schedule of KEY into EK, sets EKV, leaves ERR = 0, and changes
nothing else but the key-schedule family's binding and, where a KEY word is not written, the record of ReadUnwritten. -/
def Obligations.ExpandWritesTheSchedule : Prop :=
  ∀ s, familyAvailable .keySchedule s = true →
    ∃ t, exec (.expand 16#8 176#8) s = .next t ∧ t.err = .ok ∧ t.ekv = true ∧
      IsScheduleOf s.keyReg.bytes t.ekReg ∧ RecordsRead (isWritten s.keyReg) s t ∧
      t.stateReg = s.stateReg ∧ BindsOnly .keySchedule s t ∧ KeepsHostRegisters s t

/-- R205, R206, R162: with the family available, EXPAND raises InvalidKeySize when KLEN ≠ 16 and
InvalidExpandedKeyBufferSize when KLEN = 16 and BLEN ≠ 176; only ERR and the family's binding change, so EK and EKV keep
their values and KEY is not read. -/
def Obligations.ExpandSizeErrors : Prop :=
  ∀ klen blen s, familyAvailable .keySchedule s = true →
    (klen ≠ 16#8 → ∃ t, exec (.expand klen blen) s = .next t ∧
      t = { s with err := .invalidKeySize, bindings := t.bindings } ∧ BindsOnly .keySchedule s t) ∧
    (klen = 16#8 → blen ≠ 176#8 → ∃ t, exec (.expand klen blen) s = .next t ∧
      t = { s with err := .invalidExpandedKeyBufferSize, bindings := t.bindings } ∧ BindsOnly .keySchedule s t)

/-- R163: an EXPAND that raises any error writes nothing to EK and does not change EKV; one that succeeds has written all 44
words in that one step. -/
def Obligations.ExpandNeverWritesPartially : Prop :=
  ∀ klen blen s t, exec (.expand klen blen) s = .next t →
    (t.err ≠ .ok → t.ekReg = s.ekReg ∧ t.ekv = s.ekv) ∧
    (t.err = .ok → IsScheduleOf s.keyReg.bytes t.ekReg ∧ t.ekv = true)

/-- R160: the round constants are the ten non-zero values 01 02 04 08 10 20 40 80 1B 36, each the double of the one before;
the doubling is R160's own inference from R140 (sanity). -/
def Obligations.RoundConstantsDouble : Prop :=
  [0, 1, 2, 3, 4, 5, 6, 7, 8, 9].map rcon =
    [0x01#8, 0x02#8, 0x04#8, 0x08#8, 0x10#8, 0x20#8, 0x40#8, 0x80#8, 0x1B#8, 0x36#8] ∧
  (∀ j : Fin 9, rcon (j.val + 1) = xtime (rcon j.val)) ∧ ∀ j : Fin 10, rcon j.val ≠ 0#8

/-- R23, R31, R163: from every state in which EKV = 1 means that EK is a whole key schedule, a step gives such a state. -/
def Obligations.EkStaysAWholeSchedule : Prop :=
  ∀ s t, EkHoldsSchedule s → step s = .next t → EkHoldsSchedule t

/-- R36, R31: right after reset EKV = 0, so the invariant on EK holds whatever EK contains. -/
def Obligations.ResetMeetsTheEkInvariant : Prop :=
  EkHoldsSchedule State.reset ∧ ∀ e, EkHoldsSchedule { State.reset with ekReg := e }

/-! ### Errors and rules of the whole machine -/

/-- R105, R201, R208: the order of the errors, for every illegal word and every command of a family: IllegalCommand,
UnsupportedVariant, InvalidKeySize, InvalidExpandedKeyBufferSize, and ERR = 0 when none applies. That ERR is 0 also when
the command read an operand not written is the model's choice (log entry 2). A legal SELECT falls under no clause here:
SelectBindsNamedFamilies and SelectOfUnavailableFamilyFails give its ERR. -/
def Obligations.ErrorPriority : Prop :=
  ∀ w s t, execute w s = .next t →
    ((∀ i, decode w ≠ .ok i) → t.err = .illegalCommand) ∧
    (∀ i f, decode w = .ok i → commandFamily i = some f → familyAvailable f s = false → t.err = .unsupportedVariant) ∧
    (∀ klen blen, decode w = .ok (.expand klen blen) → familyAvailable .keySchedule s = true →
      t.err = if klen ≠ 16#8 then .invalidKeySize
        else if blen ≠ 176#8 then .invalidExpandedKeyBufferSize else .ok) ∧
    (∀ i f, decode w = .ok i → commandFamily i = some f → familyAvailable f s = true →
      (∀ klen blen, i ≠ .expand klen blen) → t.err = .ok)

/-- R202, R209: when a command leaves ERR ≠ 0, it either did nothing or only bound families: no data register, no EKV and no
record changed. -/
def Obligations.FailedCommandOnlyBinds : Prop :=
  ∀ i s t, exec i s = .next t → t.err ≠ .ok → t = { s with err := t.err, bindings := t.bindings }

/-- R20, R24, R25, R28, R29: no command writes CAP, OVERRIDE, RKEY or KEY; only EXPAND writes EK and EKV; only confusion and
diffusion commands write STATE. -/
def Obligations.CommandsWriteOnlyTheirRegisters : Prop :=
  ∀ i s t, exec i s = .next t →
    KeepsHostRegisters s t ∧
    ((∀ klen blen, i ≠ .expand klen blen) → t.ekReg = s.ekReg ∧ t.ekv = s.ekv) ∧
    (commandFamily i = none ∨ commandFamily i = some .keySchedule → t.stateReg = s.stateReg)

/-- R34, R201, R57: an access that is not a write to CMD changes neither ERR nor EKV nor any binding. -/
def Obligations.OnlyCommandsWriteFlags : Prop :=
  ∀ s t, step s = .next t → (∀ rest, s.port ≠ .reset :: rest) →
    (∀ w rest, s.port ≠ .write 0x000#9 32 w :: rest) →
    t.err = s.err ∧ t.ekv = s.ekv ∧ t.bindings = s.bindings

/-- R34, R23: EKV goes from 0 to 1 only by a successful EXPAND, and from 1 to 0 only by reset. -/
def Obligations.EkvSetByExpandClearedByReset : Prop :=
  ∀ s t, step s = .next t →
    (s.ekv = false → t.ekv = true → ∃ w rest, s.port = .write 0x000#9 32 w :: rest ∧
      decode w = .ok (.expand 16#8 176#8) ∧ t.err = .ok) ∧
    (s.ekv = true → t.ekv = false → ∃ rest, s.port = .reset :: rest)

/-- R24: CAP is constant: no step changes TIERS, and bit 0 is always 1. -/
def Obligations.CapIsConstant : Prop :=
  ∀ s t, step s = .next t → capTiers t = capTiers s ∧ (capTiers t).getLsbD 0 = true

/-- R219: a recorded ReadUnwritten is never cleared, by no step and not by reset. That reset does not clear it is log entry
7. -/
def Obligations.RecordedFaultIsNeverCleared : Prop :=
  ∀ s t x, step s = .next t → s.modelFault = some x → t.modelFault = some x

/-- R104, R35: two states that differ only in which variants are present and bound take the same step: the same STATE, EK,
STATUS and other registers, and the same response, except where the access reads BIND or CAP. A write to OVERRIDE is
covered where its tier can be selected in both states or in neither, as it is for every write when TIERS is the same. -/
def Obligations.VariantsAreObservablyEquivalent : Prop :=
  ∀ s s' t, SameUpToVariants s s' →
    (∀ v rest, s.port = .write 0x00C#9 32 v :: rest →
      tierSelectable (capTiers s) (v.extractLsb' 0 3) = tierSelectable (capTiers s') (v.extractLsb' 0 3)) →
    step s = .next t →
    ∃ t', step s' = .next t' ∧ SameUpToVariants t t' ∧
      (t.resp ≠ t'.resp → ∃ off bits rest, s.port = .read off bits :: rest ∧ (off = 0x008#9 ∨ off = 0x010#9))

/-- R32, R219, U1, U2: what unwritten registers contain never shows in a run that records no ReadUnwritten. So the zero the
model names for them at reset (log entry 1) supports no claim about a clean run. -/
def Obligations.UnwrittenContentsNeverShow : Prop :=
  ∀ s s' t, AgreeUpToUnwritten s s' → step s = .next t → Clean t →
    ∃ t', step s' = .next t' ∧ AgreeUpToUnwritten t t'
end

