-- ==== Sys2Proof/Laws/Encoding.lean ====
section
/-!
SUPPORT. The fields of an assembled word, and a word from its fields (30_encoding.md R80, R86).
-/

namespace Sys2Proof

/-- Bit `n` of an assembled word is bit `n mod 8` of its field `n div 8` (R80). -/
theorem getLsbD_assemble (op a b : Byte) (n : Nat) :
    (assemble op a b).getLsbD n =
      if n < 8 then op.getLsbD n else if n < 16 then a.getLsbD (n - 8) else if n < 24 then b.getLsbD (n - 16) else false := by
  change (0#8 ++ b ++ a ++ op : BitVec (8 + 8 + 8 + 8)).getLsbD n = _
  simp only [BitVec.getLsbD_append, BitVec.getLsbD_zero]
  by_cases h1 : n < 8
  · simp [h1]
  by_cases h2 : n < 16
  · simp [h1, h2, show n - 8 < 8 by omega]
  by_cases h3 : n < 24
  · simp [h1, h2, h3, show ¬ n - 8 < 8 by omega, show n - 8 - 8 = n - 16 by omega, show n - 16 < 8 by omega]
  · simp [h1, h2, h3, show ¬ n - 8 < 8 by omega, show ¬ n - 8 - 8 < 8 by omega]

@[simp] theorem fieldOp_assemble (op a b : Byte) : fieldOp (assemble op a b) = op := by
  apply BitVec.eq_of_getLsbD_eq
  intro n hn
  simp [fieldOp, getLsbD_assemble, hn]

@[simp] theorem fieldA_assemble (op a b : Byte) : fieldA (assemble op a b) = a := by
  apply BitVec.eq_of_getLsbD_eq
  intro n hn
  simp [fieldA, getLsbD_assemble, hn, show 8 + n < 16 by omega, show ¬ 8 + n < 8 by omega]

@[simp] theorem fieldB_assemble (op a b : Byte) : fieldB (assemble op a b) = b := by
  apply BitVec.eq_of_getLsbD_eq
  intro n hn
  simp [fieldB, getLsbD_assemble, hn, show 16 + n < 24 by omega, show ¬ 16 + n < 16 by omega, show ¬ 16 + n < 8 by omega]

@[simp] theorem fieldZ_assemble (op a b : Byte) : fieldZ (assemble op a b) = 0#8 := by
  apply BitVec.eq_of_getLsbD_eq
  intro n hn
  simp [fieldZ, getLsbD_assemble, hn, show ¬ 24 + n < 24 by omega, show ¬ 24 + n < 16 by omega, show ¬ 24 + n < 8 by omega]

/-- A word whose reserved field is 0 is assembled from its other fields (R80). -/
theorem assemble_fields {w : Word} (h : fieldZ w = 0#8) : assemble (fieldOp w) (fieldA w) (fieldB w) = w := by
  apply BitVec.eq_of_getLsbD_eq
  intro n hn
  rw [getLsbD_assemble]
  by_cases h1 : n < 8
  · simp [h1, fieldOp]
  by_cases h2 : n < 16
  · simp [h1, h2, fieldA, show n - 8 < 8 by omega, show 8 + (n - 8) = n by omega]
  by_cases h3 : n < 24
  · simp [h1, h2, h3, fieldB, show n - 16 < 8 by omega, show 16 + (n - 16) = n by omega]
  · have := congrArg (fun z => BitVec.getLsbD z (n - 24)) h
    simp [fieldZ, show n - 24 < 8 by omega, show 24 + (n - 24) = n by omega] at this
    simp [h1, h2, h3, this]

/-- The field values of a word that encodes command `i` (R82, R84). -/
def Encodes (w : Word) (i : Instr) : Prop :=
  fieldZ w = 0#8 ∧
    match i with
    | .sub => fieldOp w = 0x01#8 ∧ fieldA w = 0#8 ∧ fieldB w = 0#8
    | .invsub => fieldOp w = 0x02#8 ∧ fieldA w = 0#8 ∧ fieldB w = 0#8
    | .ark k => fieldOp w = 0x03#8 ∧ fieldA w = k ∧ fieldB w = 0#8 ∧ (k ≤ 0x0A#8 ∨ k = 0xFF#8)
    | .shr => fieldOp w = 0x11#8 ∧ fieldA w = 0#8 ∧ fieldB w = 0#8
    | .invshr => fieldOp w = 0x12#8 ∧ fieldA w = 0#8 ∧ fieldB w = 0#8
    | .mix => fieldOp w = 0x13#8 ∧ fieldA w = 0#8 ∧ fieldB w = 0#8
    | .invmix => fieldOp w = 0x14#8 ∧ fieldA w = 0#8 ∧ fieldB w = 0#8
    | .expand k b => fieldOp w = 0x21#8 ∧ fieldA w = k ∧ fieldB w = b
    | .select k => fieldOp w = 0x30#8 ∧ fieldA w = k ∧ fieldB w = 0#8 ∧ k ≤ 0x03#8

theorem decodePlain_eq_ok {a b : Byte} {i j : Instr} (h : decodePlain a b j = .ok i) : i = j ∧ a = 0#8 ∧ b = 0#8 := by
  unfold decodePlain at h
  by_cases hab : a ≠ 0#8 ∨ b ≠ 0#8
  · rw [if_pos hab] at h; cases h
  · rw [if_neg hab] at h; cases h
    exact ⟨rfl, by simpa using hab⟩

/-- Everything the decoder accepts (R84). -/
theorem decode_eq_ok_iff (w : Word) (i : Instr) : decode w = .ok i ↔ Encodes w i := by
  constructor
  · intro h
    unfold decode at h
    dsimp only at h
    by_cases hz : fieldZ w ≠ 0#8
    · rw [if_pos hz] at h; cases h
    rw [if_neg hz] at h
    refine ⟨by simpa using hz, ?_⟩
    by_cases ho : fieldOp w = 0x01#8
    · rw [if_pos ho] at h; obtain ⟨rfl, hab⟩ := decodePlain_eq_ok h; exact ⟨ho, hab⟩
    rw [if_neg ho] at h; clear ho
    by_cases ho : fieldOp w = 0x02#8
    · rw [if_pos ho] at h; obtain ⟨rfl, hab⟩ := decodePlain_eq_ok h; exact ⟨ho, hab⟩
    rw [if_neg ho] at h; clear ho
    by_cases ho : fieldOp w = 0x11#8
    · rw [if_pos ho] at h; obtain ⟨rfl, hab⟩ := decodePlain_eq_ok h; exact ⟨ho, hab⟩
    rw [if_neg ho] at h; clear ho
    by_cases ho : fieldOp w = 0x12#8
    · rw [if_pos ho] at h; obtain ⟨rfl, hab⟩ := decodePlain_eq_ok h; exact ⟨ho, hab⟩
    rw [if_neg ho] at h; clear ho
    by_cases ho : fieldOp w = 0x13#8
    · rw [if_pos ho] at h; obtain ⟨rfl, hab⟩ := decodePlain_eq_ok h; exact ⟨ho, hab⟩
    rw [if_neg ho] at h; clear ho
    by_cases ho : fieldOp w = 0x14#8
    · rw [if_pos ho] at h; obtain ⟨rfl, hab⟩ := decodePlain_eq_ok h; exact ⟨ho, hab⟩
    rw [if_neg ho] at h; clear ho
    by_cases ho : fieldOp w = 0x03#8
    · rw [if_pos ho] at h
      by_cases hb : fieldB w ≠ 0#8
      · rw [if_pos hb] at h; cases h
      rw [if_neg hb] at h
      by_cases ha : fieldA w ≤ 0x0A#8 ∨ fieldA w = 0xFF#8
      · rw [if_pos ha] at h; cases h; exact ⟨ho, rfl, by simpa using hb, ha⟩
      · rw [if_neg ha] at h; cases h
    rw [if_neg ho] at h; clear ho
    by_cases ho : fieldOp w = 0x21#8
    · rw [if_pos ho] at h; cases h; exact ⟨ho, rfl, rfl⟩
    rw [if_neg ho] at h; clear ho
    by_cases ho : fieldOp w = 0x30#8
    · rw [if_pos ho] at h
      by_cases hb : fieldB w ≠ 0#8
      · rw [if_pos hb] at h; cases h
      rw [if_neg hb] at h
      by_cases ha : fieldA w ≤ 0x03#8
      · rw [if_pos ha] at h; cases h; exact ⟨ho, rfl, by simpa using hb, ha⟩
      · rw [if_neg ha] at h; cases h
    rw [if_neg ho] at h
    cases h
  · rintro ⟨hz, h⟩
    unfold decode
    dsimp only
    rw [if_neg (by simp [hz])]
    cases i with
    | ark k => obtain ⟨ho, ha, hb, hk⟩ := h; simp [ho, ha, hb, hk]
    | expand k b => obtain ⟨ho, ha, hb⟩ := h; simp [ho, ha, hb]
    | select k => obtain ⟨ho, ha, hb, hk⟩ := h; simp [ho, ha, hb, hk]
    | sub | invsub | shr | invshr | mix | invmix => obtain ⟨ho, ha, hb⟩ := h; simp [ho, ha, hb, decodePlain]

end Sys2Proof
end

