-- ==== Sys2Proof/Laws/Quad.lean ====
section
/-!
SUPPORT. The small lemmas of `Quad`, `Block` and `ExpandedKey`: reading what was built, mapped, zipped or set, and equality
by index.
-/

namespace Sys2Proof

@[simp] theorem Quad.get_ofFn {α : Type} (f : Fin 4 → α) (i : Fin 4) : (Quad.ofFn f).get i = f i := by
  match i with
  | 0 | 1 | 2 | 3 => rfl

@[simp] theorem Quad.get_map {α β : Type} (f : α → β) (q : Quad α) (i : Fin 4) : (q.map f).get i = f (q.get i) := by
  match i with
  | 0 | 1 | 2 | 3 => rfl

@[simp] theorem Quad.get_zipWith {α β γ : Type} (f : α → β → γ) (p : Quad α) (q : Quad β) (i : Fin 4) :
    (Quad.zipWith f p q).get i = f (p.get i) (q.get i) := by
  match i with
  | 0 | 1 | 2 | 3 => rfl

@[simp] theorem Quad.get_replicate {α : Type} (v : α) (i : Fin 4) : (Quad.replicate v).get i = v := by
  match i with
  | 0 | 1 | 2 | 3 => rfl

@[simp] theorem Quad.get_set_self {α : Type} (q : Quad α) (i : Fin 4) (v : α) : (q.set i v).get i = v := by
  match i with
  | 0 | 1 | 2 | 3 => rfl

theorem Quad.get_set_ne {α : Type} (q : Quad α) {i j : Fin 4} (v : α) (h : j ≠ i) : (q.set i v).get j = q.get j := by
  match i, j with
  | 0, 0 | 1, 1 | 2, 2 | 3, 3 => exact absurd rfl h
  | 0, 1 | 0, 2 | 0, 3 | 1, 0 | 1, 2 | 1, 3 | 2, 0 | 2, 1 | 2, 3 | 3, 0 | 3, 1 | 3, 2 => rfl

theorem Quad.ext_get {α : Type} {p q : Quad α} (h : ∀ i, p.get i = q.get i) : p = q := by
  obtain ⟨p0, p1, p2, p3⟩ := p
  obtain ⟨q0, q1, q2, q3⟩ := q
  have h0 := h 0
  have h1 := h 1
  have h2 := h 2
  have h3 := h 3
  simp only [Quad.get] at h0 h1 h2 h3
  simp [h0, h1, h2, h3]

/-- Byte `4c + r` is row `r` of column `c` (R14). -/
theorem Block.byte_eq (b : Block) (r c : Fin 4) (h : 4 * c.val + r.val < 16) :
    Block.byte b ⟨4 * c.val + r.val, h⟩ = (Quad.get b c).get r := by
  have hc : (⟨(4 * c.val + r.val) / 4, by omega⟩ : Fin 4) = c := Fin.ext (by simp; omega)
  have hr : (⟨(4 * c.val + r.val) % 4, by omega⟩ : Fin 4) = r := Fin.ext (by simp)
  simp only [Block.byte, hc, hr]

@[simp] theorem ExpandedKey.roundKey_ofRoundKeys (f : Fin 11 → Block) (k : Fin 11) :
    (ExpandedKey.ofRoundKeys f).roundKey k = f k := by
  match k with
  | 0 | 1 | 2 | 3 | 4 | 5 | 6 | 7 | 8 | 9 | 10 => rfl

/-- Byte `16k + i` of the expanded key is byte `i` of round key `k` (R164). -/
theorem ExpandedKey.byte_eq (e : ExpandedKey) (k : Fin 11) (i : Fin 16) (h : 16 * k.val + i.val < 176) :
    e.byte ⟨16 * k.val + i.val, h⟩ = Block.byte (e.roundKey k) i := by
  have hk : (⟨(16 * k.val + i.val) / 4 / 4, by omega⟩ : Fin 11) = k := Fin.ext (by simp; omega)
  have hc : (⟨(16 * k.val + i.val) / 4 % 4, by omega⟩ : Fin 4) = ⟨i.val / 4, by omega⟩ := Fin.ext (by simp; omega)
  have hr : (⟨(16 * k.val + i.val) % 4, by omega⟩ : Fin 4) = ⟨i.val % 4, by omega⟩ := Fin.ext (by simp; omega)
  simp only [ExpandedKey.byte, ExpandedKey.word, Block.byte, hk, hc, hr]

end Sys2Proof
end

