-- ==== Sys2Proof/Laws/Field.lean ====
section
/-!
SUPPORT. Linearity of the field operations over ⊕ (42_diffusion.md R142).
-/

namespace Sys2Proof.Machine

/-- Doubling distributes over ⊕ (R140, R142). -/
theorem xtime_xor (a b : Byte) : xtime (a ^^^ b) = xtime a ^^^ xtime b := by
  unfold xtime
  rw [BitVec.getLsbD_xor]
  cases a.getLsbD 7 <;> cases b.getLsbD 7 <;>
    simp only [BitVec.shiftLeft_xor_distrib, Bool.xor_false, Bool.xor_true, Bool.not_true, Bool.not_false, if_true, if_false,
      Bool.false_eq_true]
  · ac_rfl
  · ac_rfl
  · rw [show a <<< 1 ^^^ 0x1B#8 ^^^ (b <<< 1 ^^^ 0x1B#8) = a <<< 1 ^^^ b <<< 1 ^^^ (0x1B#8 ^^^ 0x1B#8) by ac_rfl]
    simp

@[simp] theorem xtime_zero : xtime 0#8 = 0#8 := by decide

/-- The loop of R141 is additive in its accumulator and its multiplicand together. -/
theorem gmulLoop_xor (c : Byte) (n : Nat) (x y p q : Byte) :
    gmulLoop c n (x ^^^ y) (p ^^^ q) = gmulLoop c n x p ^^^ gmulLoop c n y q := by
  induction n generalizing x y p q with
  | zero => rfl
  | succ n ih =>
    unfold gmulLoop
    rw [xtime_xor]
    split
    · rw [← ih]; congr 1; ac_rfl
    · exact ih ..

end Sys2Proof.Machine
end

