-- ==== Sys2Proof/Laws/KeySchedule.lean ====
section
/-!
SUPPORT. The words of the expanded key, read from the sliding window of the schedule (43_key_schedule.md R162).
-/

namespace Sys2Proof.Machine

/-- Element `j` of the window at `n` is the first element of the window at `n + j`: both are `W[n+j]`. -/
theorem scheduleWindow_get (key : Block) (n : Nat) (j : Fin 4) :
    (scheduleWindow key n).get j = (scheduleWindow key (n + j.val)).e0 := by
  match j with
  | 0 | 1 | 2 | 3 => rfl

/-- The recurrence: `W[n+4] = W[n] ⊕ temp`, `temp` from `W[n+3]` (R162). -/
theorem scheduleWindow_succ4 (key : Block) (n : Nat) :
    (scheduleWindow key (n + 4)).e0 =
      xorColumn (scheduleWindow key n).e0 (scheduleTemp (n + 4) (scheduleWindow key (n + 3)).e0) := rfl

/-- Word `i` of the expanded key is `W[i]` (R161). -/
theorem expandKey_word (key : Block) (i : Fin 44) : (expandKey key).word i = (scheduleWindow key i.val).e0 := by
  have h : 4 * (i.val / 4) + i.val % 4 = i.val := by omega
  simp [expandKey, ExpandedKey.word, scheduleWindow_get, h]

end Sys2Proof.Machine
end

