-- ==== Sys2Proof/Laws/State.lean ====
section
/-!
SUPPORT. What each update of the state does to each field: one lemma per field and update, so that no proof unfolds a record
update.
-/

namespace Sys2Proof.Machine

@[simp] theorem raiseError_err (e : ErrCode) (s : State) : (raiseError e s).err = e := rfl
@[simp] theorem raiseError_ekv (e : ErrCode) (s : State) : (raiseError e s).ekv = s.ekv := rfl
@[simp] theorem raiseError_vecTiers (e : ErrCode) (s : State) : (raiseError e s).vecTiers = s.vecTiers := rfl
@[simp] theorem raiseError_overrideTier (e : ErrCode) (s : State) : (raiseError e s).overrideTier = s.overrideTier := rfl
@[simp] theorem raiseError_bindings (e : ErrCode) (s : State) : (raiseError e s).bindings = s.bindings := rfl
@[simp] theorem raiseError_stateReg (e : ErrCode) (s : State) : (raiseError e s).stateReg = s.stateReg := rfl
@[simp] theorem raiseError_rkeyReg (e : ErrCode) (s : State) : (raiseError e s).rkeyReg = s.rkeyReg := rfl
@[simp] theorem raiseError_keyReg (e : ErrCode) (s : State) : (raiseError e s).keyReg = s.keyReg := rfl
@[simp] theorem raiseError_ekReg (e : ErrCode) (s : State) : (raiseError e s).ekReg = s.ekReg := rfl
@[simp] theorem raiseError_modelFault (e : ErrCode) (s : State) : (raiseError e s).modelFault = s.modelFault := rfl
@[simp] theorem raiseError_port (e : ErrCode) (s : State) : (raiseError e s).port = s.port := rfl
@[simp] theorem raiseError_resp (e : ErrCode) (s : State) : (raiseError e s).resp = s.resp := rfl

@[simp] theorem completeCommand_err (s : State) : (completeCommand s).err = .ok := rfl
@[simp] theorem completeCommand_ekv (s : State) : (completeCommand s).ekv = s.ekv := rfl
@[simp] theorem completeCommand_vecTiers (s : State) : (completeCommand s).vecTiers = s.vecTiers := rfl
@[simp] theorem completeCommand_overrideTier (s : State) : (completeCommand s).overrideTier = s.overrideTier := rfl
@[simp] theorem completeCommand_bindings (s : State) : (completeCommand s).bindings = s.bindings := rfl
@[simp] theorem completeCommand_stateReg (s : State) : (completeCommand s).stateReg = s.stateReg := rfl
@[simp] theorem completeCommand_rkeyReg (s : State) : (completeCommand s).rkeyReg = s.rkeyReg := rfl
@[simp] theorem completeCommand_keyReg (s : State) : (completeCommand s).keyReg = s.keyReg := rfl
@[simp] theorem completeCommand_ekReg (s : State) : (completeCommand s).ekReg = s.ekReg := rfl
@[simp] theorem completeCommand_modelFault (s : State) : (completeCommand s).modelFault = s.modelFault := rfl
@[simp] theorem completeCommand_port (s : State) : (completeCommand s).port = s.port := rfl
@[simp] theorem completeCommand_resp (s : State) : (completeCommand s).resp = s.resp := rfl

@[simp] theorem recordUnwritten_err (w : Bool) (s : State) : (recordUnwritten w s).err = s.err := by cases w <;> rfl
@[simp] theorem recordUnwritten_ekv (w : Bool) (s : State) : (recordUnwritten w s).ekv = s.ekv := by cases w <;> rfl
@[simp] theorem recordUnwritten_vecTiers (w : Bool) (s : State) : (recordUnwritten w s).vecTiers = s.vecTiers := by cases w <;> rfl
@[simp] theorem recordUnwritten_overrideTier (w : Bool) (s : State) : (recordUnwritten w s).overrideTier = s.overrideTier := by cases w <;> rfl
@[simp] theorem recordUnwritten_bindings (w : Bool) (s : State) : (recordUnwritten w s).bindings = s.bindings := by cases w <;> rfl
@[simp] theorem recordUnwritten_stateReg (w : Bool) (s : State) : (recordUnwritten w s).stateReg = s.stateReg := by cases w <;> rfl
@[simp] theorem recordUnwritten_rkeyReg (w : Bool) (s : State) : (recordUnwritten w s).rkeyReg = s.rkeyReg := by cases w <;> rfl
@[simp] theorem recordUnwritten_keyReg (w : Bool) (s : State) : (recordUnwritten w s).keyReg = s.keyReg := by cases w <;> rfl
@[simp] theorem recordUnwritten_ekReg (w : Bool) (s : State) : (recordUnwritten w s).ekReg = s.ekReg := by cases w <;> rfl
@[simp] theorem recordUnwritten_modelFault (w : Bool) (s : State) : (recordUnwritten w s).modelFault = if w then s.modelFault else some .readUnwritten := by cases w <;> rfl
@[simp] theorem recordUnwritten_port (w : Bool) (s : State) : (recordUnwritten w s).port = s.port := by cases w <;> rfl
@[simp] theorem recordUnwritten_resp (w : Bool) (s : State) : (recordUnwritten w s).resp = s.resp := by cases w <;> rfl

@[simp] theorem writeStateReg_err (b : Block) (s : State) : (writeStateReg b s).err = s.err := rfl
@[simp] theorem writeStateReg_ekv (b : Block) (s : State) : (writeStateReg b s).ekv = s.ekv := rfl
@[simp] theorem writeStateReg_vecTiers (b : Block) (s : State) : (writeStateReg b s).vecTiers = s.vecTiers := rfl
@[simp] theorem writeStateReg_overrideTier (b : Block) (s : State) : (writeStateReg b s).overrideTier = s.overrideTier := rfl
@[simp] theorem writeStateReg_bindings (b : Block) (s : State) : (writeStateReg b s).bindings = s.bindings := rfl
@[simp] theorem writeStateReg_stateReg (b : Block) (s : State) : (writeStateReg b s).stateReg = { bytes := b, written := Quad.replicate true } := rfl
@[simp] theorem writeStateReg_rkeyReg (b : Block) (s : State) : (writeStateReg b s).rkeyReg = s.rkeyReg := rfl
@[simp] theorem writeStateReg_keyReg (b : Block) (s : State) : (writeStateReg b s).keyReg = s.keyReg := rfl
@[simp] theorem writeStateReg_ekReg (b : Block) (s : State) : (writeStateReg b s).ekReg = s.ekReg := rfl
@[simp] theorem writeStateReg_modelFault (b : Block) (s : State) : (writeStateReg b s).modelFault = s.modelFault := rfl
@[simp] theorem writeStateReg_port (b : Block) (s : State) : (writeStateReg b s).port = s.port := rfl
@[simp] theorem writeStateReg_resp (b : Block) (s : State) : (writeStateReg b s).resp = s.resp := rfl

@[simp] theorem writeExpandedKey_err (e : ExpandedKey) (s : State) : (writeExpandedKey e s).err = s.err := rfl
@[simp] theorem writeExpandedKey_ekv (e : ExpandedKey) (s : State) : (writeExpandedKey e s).ekv = true := rfl
@[simp] theorem writeExpandedKey_vecTiers (e : ExpandedKey) (s : State) : (writeExpandedKey e s).vecTiers = s.vecTiers := rfl
@[simp] theorem writeExpandedKey_overrideTier (e : ExpandedKey) (s : State) : (writeExpandedKey e s).overrideTier = s.overrideTier := rfl
@[simp] theorem writeExpandedKey_bindings (e : ExpandedKey) (s : State) : (writeExpandedKey e s).bindings = s.bindings := rfl
@[simp] theorem writeExpandedKey_stateReg (e : ExpandedKey) (s : State) : (writeExpandedKey e s).stateReg = s.stateReg := rfl
@[simp] theorem writeExpandedKey_rkeyReg (e : ExpandedKey) (s : State) : (writeExpandedKey e s).rkeyReg = s.rkeyReg := rfl
@[simp] theorem writeExpandedKey_keyReg (e : ExpandedKey) (s : State) : (writeExpandedKey e s).keyReg = s.keyReg := rfl
@[simp] theorem writeExpandedKey_ekReg (e : ExpandedKey) (s : State) : (writeExpandedKey e s).ekReg = e := rfl
@[simp] theorem writeExpandedKey_modelFault (e : ExpandedKey) (s : State) : (writeExpandedKey e s).modelFault = s.modelFault := rfl
@[simp] theorem writeExpandedKey_port (e : ExpandedKey) (s : State) : (writeExpandedKey e s).port = s.port := rfl
@[simp] theorem writeExpandedKey_resp (e : ExpandedKey) (s : State) : (writeExpandedKey e s).resp = s.resp := rfl

@[simp] theorem setBinding_err (f : Family) (v : Variant) (s : State) : (setBinding f v s).err = s.err := by cases f <;> rfl
@[simp] theorem setBinding_ekv (f : Family) (v : Variant) (s : State) : (setBinding f v s).ekv = s.ekv := by cases f <;> rfl
@[simp] theorem setBinding_vecTiers (f : Family) (v : Variant) (s : State) : (setBinding f v s).vecTiers = s.vecTiers := by cases f <;> rfl
@[simp] theorem setBinding_overrideTier (f : Family) (v : Variant) (s : State) : (setBinding f v s).overrideTier = s.overrideTier := by cases f <;> rfl
@[simp] theorem setBinding_stateReg (f : Family) (v : Variant) (s : State) : (setBinding f v s).stateReg = s.stateReg := by cases f <;> rfl
@[simp] theorem setBinding_rkeyReg (f : Family) (v : Variant) (s : State) : (setBinding f v s).rkeyReg = s.rkeyReg := by cases f <;> rfl
@[simp] theorem setBinding_keyReg (f : Family) (v : Variant) (s : State) : (setBinding f v s).keyReg = s.keyReg := by cases f <;> rfl
@[simp] theorem setBinding_ekReg (f : Family) (v : Variant) (s : State) : (setBinding f v s).ekReg = s.ekReg := by cases f <;> rfl
@[simp] theorem setBinding_modelFault (f : Family) (v : Variant) (s : State) : (setBinding f v s).modelFault = s.modelFault := by cases f <;> rfl
@[simp] theorem setBinding_port (f : Family) (v : Variant) (s : State) : (setBinding f v s).port = s.port := by cases f <;> rfl
@[simp] theorem setBinding_resp (f : Family) (v : Variant) (s : State) : (setBinding f v s).resp = s.resp := by cases f <;> rfl

@[simp] theorem respond_err (r : PortResponse) (s : State) : (respond r s).err = s.err := rfl
@[simp] theorem respond_ekv (r : PortResponse) (s : State) : (respond r s).ekv = s.ekv := rfl
@[simp] theorem respond_vecTiers (r : PortResponse) (s : State) : (respond r s).vecTiers = s.vecTiers := rfl
@[simp] theorem respond_overrideTier (r : PortResponse) (s : State) : (respond r s).overrideTier = s.overrideTier := rfl
@[simp] theorem respond_bindings (r : PortResponse) (s : State) : (respond r s).bindings = s.bindings := rfl
@[simp] theorem respond_stateReg (r : PortResponse) (s : State) : (respond r s).stateReg = s.stateReg := rfl
@[simp] theorem respond_rkeyReg (r : PortResponse) (s : State) : (respond r s).rkeyReg = s.rkeyReg := rfl
@[simp] theorem respond_keyReg (r : PortResponse) (s : State) : (respond r s).keyReg = s.keyReg := rfl
@[simp] theorem respond_ekReg (r : PortResponse) (s : State) : (respond r s).ekReg = s.ekReg := rfl
@[simp] theorem respond_modelFault (r : PortResponse) (s : State) : (respond r s).modelFault = s.modelFault := rfl
@[simp] theorem respond_port (r : PortResponse) (s : State) : (respond r s).port = s.port := rfl
@[simp] theorem respond_resp (r : PortResponse) (s : State) : (respond r s).resp = some r := rfl

@[simp] theorem takeAccess_err (rest : List PortEvent) (s : State) : (takeAccess rest s).err = s.err := rfl
@[simp] theorem takeAccess_ekv (rest : List PortEvent) (s : State) : (takeAccess rest s).ekv = s.ekv := rfl
@[simp] theorem takeAccess_vecTiers (rest : List PortEvent) (s : State) : (takeAccess rest s).vecTiers = s.vecTiers := rfl
@[simp] theorem takeAccess_overrideTier (rest : List PortEvent) (s : State) : (takeAccess rest s).overrideTier = s.overrideTier := rfl
@[simp] theorem takeAccess_bindings (rest : List PortEvent) (s : State) : (takeAccess rest s).bindings = s.bindings := rfl
@[simp] theorem takeAccess_stateReg (rest : List PortEvent) (s : State) : (takeAccess rest s).stateReg = s.stateReg := rfl
@[simp] theorem takeAccess_rkeyReg (rest : List PortEvent) (s : State) : (takeAccess rest s).rkeyReg = s.rkeyReg := rfl
@[simp] theorem takeAccess_keyReg (rest : List PortEvent) (s : State) : (takeAccess rest s).keyReg = s.keyReg := rfl
@[simp] theorem takeAccess_ekReg (rest : List PortEvent) (s : State) : (takeAccess rest s).ekReg = s.ekReg := rfl
@[simp] theorem takeAccess_modelFault (rest : List PortEvent) (s : State) : (takeAccess rest s).modelFault = s.modelFault := rfl
@[simp] theorem takeAccess_port (rest : List PortEvent) (s : State) : (takeAccess rest s).port = rest := rfl
@[simp] theorem takeAccess_resp (rest : List PortEvent) (s : State) : (takeAccess rest s).resp = none := rfl

/-- The binding of every family after one is set. -/
@[simp] theorem bindingOf_setBinding (f g : Family) (v : Variant) (s : State) :
    bindingOf (setBinding f v s).bindings g = if g = f then some v else bindingOf s.bindings g := by
  cases f <;> cases g <;> rfl

/-- Setting a binding touches the bindings only. -/
theorem setBinding_eq (f : Family) (v : Variant) (s : State) :
    setBinding f v s = { s with bindings := (setBinding f v s).bindings } := by
  cases f <;> rfl

/-- Two sets of bindings with the same binding for every family are equal. -/
theorem bindings_ext {a b : Bindings} (h : ∀ f, bindingOf a f = bindingOf b f) : a = b := by
  obtain ⟨a0, a1, a2⟩ := a
  obtain ⟨b0, b1, b2⟩ := b
  have h0 := h .confusion
  have h1 := h .diffusion
  have h2 := h .keySchedule
  simp only [bindingOf] at h0 h1 h2
  simp [h0, h1, h2]

end Sys2Proof.Machine
end

