-- ==== Sys2Proof/Laws/Ops.lean ====
section
/-!
SUPPORT. What the shared operations can do, said once each: `Bind`, the command cycle, SELECT's binds, and every command.
-/

namespace Sys2Proof.Machine

/-- The probe has an answer exactly when OVERRIDE lets a family bind (R102). -/
theorem chooseVariant_isSome (tiers : BitVec 4) (t : BitVec 3) :
    (chooseVariant tiers t).isSome = tierSelectable tiers t := by
  revert tiers t; decide

/-- What the probe answers is present, in a TIERS whose Scalar bit is set (R24, R101, R102). -/
theorem chooseVariant_present :
    ∀ (tiers : BitVec 4) (t : BitVec 3), tiers.getLsbD 0 = true →
      ∀ v ∈ chooseVariant tiers t, tiers.getLsbD (variantBits v).toNat = true := by
  decide

@[simp] theorem capTiers_bit0 (s : State) : (capTiers s).getLsbD 0 = true := by
  rw [capTiers, BitVec.getLsbD_append]; rfl

/-- `Bind(f)` (R102): either the family was bound and nothing changes, or the probe's choice is written. -/
theorem bindFamily_some {f : Family} {s t : State} (h : bindFamily f s = some t) :
    (t = s ∧ (bindingOf s.bindings f).isSome) ∨
    (∃ v, bindingOf s.bindings f = none ∧ chooseVariant (capTiers s) s.overrideTier = some v ∧ t = setBinding f v s) := by
  unfold bindFamily at h
  split at h
  · rename_i heq
    exact .inl ⟨by simpa using h.symm, by simp [heq]⟩
  · rename_i heq
    split at h
    · rename_i v hv
      exact .inr ⟨v, heq, hv, by simpa using h.symm⟩
    · cases h

/-- `Bind(f)` fails exactly when the family is not available (R102, R204). -/
theorem bindFamily_isSome (f : Family) (s : State) : (bindFamily f s).isSome = familyAvailable f s := by
  unfold bindFamily familyAvailable
  rw [← chooseVariant_isSome]
  cases bindingOf s.bindings f <;> cases chooseVariant (capTiers s) s.overrideTier <;> rfl

theorem bindFamily_of_unavailable {f : Family} {s : State} (h : familyAvailable f s = false) : bindFamily f s = none := by
  rw [← bindFamily_isSome] at h
  simpa using h

theorem bindFamily_of_available {f : Family} {s : State} (h : familyAvailable f s = true) :
    ∃ t, bindFamily f s = some t := by
  rw [← bindFamily_isSome] at h
  exact Option.isSome_iff_exists.mp h

/-- From `s` to `t` nothing but bindings changed, and every new binding is the probe's choice (R102, R103). -/
def BindExtends (s t : State) : Prop :=
  t = { s with bindings := t.bindings } ∧
  ∀ f v, (bindingOf s.bindings f = some v → bindingOf t.bindings f = some v) ∧
    (bindingOf s.bindings f = none → bindingOf t.bindings f = some v →
      chooseVariant (capTiers s) s.overrideTier = some v)

theorem BindExtends.refl (s : State) : BindExtends s s :=
  ⟨rfl, fun _ _ => ⟨id, fun h h' => by simp [h] at h'⟩⟩

theorem bindFamily_extends {f : Family} {s t : State} (h : bindFamily f s = some t) : BindExtends s t := by
  obtain ⟨rfl, -⟩ | ⟨v, hn, hv, rfl⟩ := bindFamily_some h
  · exact BindExtends.refl _
  · refine ⟨setBinding_eq f v s, fun g w => ?_⟩
    by_cases hg : g = f
    · subst hg; simp [hn, hv]
    · simp [hg]; intro h1 h2; simp [h1] at h2

theorem bindFamily_bindsOnly {f : Family} {s t : State} (h : bindFamily f s = some t) : BindsOnly f s t := by
  obtain ⟨rfl, hs⟩ | ⟨v, hn, hv, rfl⟩ := bindFamily_some h
  · refine ⟨⟨fun _ h => h, fun h => ?_⟩, fun _ _ => rfl⟩
    simp [h] at hs
  · refine ⟨⟨fun w h => ?_, fun _ => ?_⟩, fun g hg => ?_⟩
    · simp [hn] at h
    · simp [hv]
    · simp [hg]

theorem BindExtends.trans {s t u : State} (h : BindExtends s t) (h' : BindExtends t u) : BindExtends s u := by
  obtain ⟨h1, h2⟩ := h
  obtain ⟨h3, h4⟩ := h'
  have hc : capTiers t = capTiers s := by rw [h1]; rfl
  have ho : t.overrideTier = s.overrideTier := by rw [h1]
  refine ⟨by rw [h3, h1], fun f v => ⟨fun hs => (h4 f v).1 ((h2 f v).1 hs), fun hs hu => ?_⟩⟩
  cases ht : bindingOf t.bindings f with
  | none => have := (h4 f v).2 ht hu; rwa [hc, ho] at this
  | some w =>
    have := (h4 f w).1 ht
    rw [hu] at this
    cases this
    exact (h2 f v).2 hs ht

/-- The command cycle (R105) when the family is available: `perform` runs on the state the bind leaves. -/
theorem familyCommand_of_available {f : Family} {s : State} (p : State → Except ErrCode State)
    (h : familyAvailable f s = true) :
    ∃ s1, bindFamily f s = some s1 ∧
      familyCommand f p s = (match p s1 with
        | .error e => .next (raiseError e s1)
        | .ok s2 => .next (completeCommand s2)) := by
  obtain ⟨s1, h1⟩ := bindFamily_of_available h
  exact ⟨s1, h1, by cases hp : p s1 <;> simp [familyCommand, h1, hp]⟩

theorem familyCommand_of_unavailable {f : Family} {s : State} (p : State → Except ErrCode State)
    (h : familyAvailable f s = false) : familyCommand f p s = .next (raiseError .unsupportedVariant s) := by
  simp [familyCommand, bindFamily_of_unavailable h]

/-- Everything the command cycle can do (R105). -/
theorem familyCommand_next {f : Family} {p : State → Except ErrCode State} {s t : State}
    (h : familyCommand f p s = .next t) :
    (familyAvailable f s = false ∧ t = raiseError .unsupportedVariant s) ∨
    (∃ s1, bindFamily f s = some s1 ∧
      ((∃ e, p s1 = .error e ∧ t = raiseError e s1) ∨ (∃ s2, p s1 = .ok s2 ∧ t = completeCommand s2))) := by
  cases ha : familyAvailable f s with
  | false => rw [familyCommand_of_unavailable p ha] at h; cases h; exact .inl ⟨rfl, rfl⟩
  | true =>
    obtain ⟨s1, h1, h2⟩ := familyCommand_of_available p ha
    rw [h2] at h
    cases hp : p s1 with
    | error e => rw [hp] at h; cases h; exact .inr ⟨s1, h1, .inl ⟨e, hp, rfl⟩⟩
    | ok s2 => rw [hp] at h; cases h; exact .inr ⟨s1, h1, .inr ⟨s2, hp, rfl⟩⟩

/-- The command cycle always answers a next state (R237). -/
theorem familyCommand_total (f : Family) (p : State → Except ErrCode State) (s : State) :
    ∃ t, familyCommand f p s = .next t := by
  unfold familyCommand
  split
  · exact ⟨_, rfl⟩
  · split <;> exact ⟨_, rfl⟩

/-- SELECT's binds change nothing but bindings, and each new binding is the probe's choice (R106). -/
theorem bindEach_extends (fs : List Family) (s : State) : BindExtends s (bindEach fs s).1 := by
  induction fs generalizing s with
  | nil => exact BindExtends.refl s
  | cons f fs ih =>
    unfold bindEach
    split
    · rename_i s1 h1
      exact (bindFamily_extends h1).trans (ih s1)
    · exact ih s

/-- A bind changes neither what OVERRIDE and TIERS allow nor the availability of any family (R102, R103). -/
theorem bindFamily_available {f g : Family} {s t : State} (h : bindFamily f s = some t) :
    familyAvailable g t = familyAvailable g s := by
  have ha : familyAvailable f s = true := by rw [← bindFamily_isSome, h]; rfl
  obtain ⟨rfl, -⟩ | ⟨v, hn, hv, rfl⟩ := bindFamily_some h
  · rfl
  · have hsel : tierSelectable (capTiers s) s.overrideTier = true := by rw [← chooseVariant_isSome, hv]; rfl
    have hc : capTiers (setBinding f v s) = capTiers s := by simp [capTiers]
    unfold familyAvailable
    by_cases hg : g = f
    · simp [hg, hsel]
    · simp [hg, hc]

/-- SELECT's binds are all Ok exactly when every named family is available (R106). -/
theorem bindEach_ok (fs : List Family) (s : State) : (bindEach fs s).2 = fs.all (fun f => familyAvailable f s) := by
  induction fs generalizing s with
  | nil => rfl
  | cons f fs ih =>
    unfold bindEach
    split
    · rename_i s1 h1
      have ha : familyAvailable f s = true := by rw [← bindFamily_isSome, h1]; rfl
      simp [ih s1, bindFamily_available h1, ha]
    · rename_i h1
      have ha : familyAvailable f s = false := by rw [← bindFamily_isSome, h1]; rfl
      simp [ha]

/-- After SELECT's binds a named, available family is bound as `Bind` binds it, and a family not named is as before. -/
theorem bindEach_binding (fs : List Family) (s : State) (g : Family) :
    bindingOf (bindEach fs s).1.bindings g =
      if g ∈ fs then (bindingOf s.bindings g).or (chooseVariant (capTiers s) s.overrideTier) else bindingOf s.bindings g := by
  induction fs generalizing s with
  | nil => rfl
  | cons f fs ih =>
    unfold bindEach
    split
    · rename_i s1 h1
      rw [ih s1]
      obtain ⟨rfl, hs⟩ | ⟨v, hn, hv, rfl⟩ := bindFamily_some h1
      · by_cases hg : g = f
        · subst hg
          obtain ⟨w, hw⟩ := Option.isSome_iff_exists.mp hs
          simp [hw]
        · simp [hg]
      · have hc : capTiers (setBinding f v s) = capTiers s := by simp [capTiers]
        by_cases hg : g = f
        · subst hg; simp [hn, hv]
        · simp [hg, hc]
    · rename_i h1
      have ha : familyAvailable f s = false := by rw [← bindFamily_isSome, h1]; rfl
      rw [familyAvailable, Bool.or_eq_false_iff, ← chooseVariant_isSome] at ha
      rw [ih s]
      by_cases hg : g = f
      · subst hg
        have h2 : bindingOf s.bindings g = none := by simpa using ha.1
        have h3 : chooseVariant (capTiers s) s.overrideTier = none := by simpa using ha.2
        simp [h2, h3]
      · simp [hg]

/-! What each command is in terms of the shared operations. -/

theorem exec_sub (s : State) : exec .sub s = familyCommand .confusion (performOnState (mapBytes sbox)) s := rfl
theorem exec_invsub (s : State) : exec .invsub s = familyCommand .confusion (performOnState (mapBytes invSbox)) s := rfl
theorem exec_shr (s : State) : exec .shr s = familyCommand .diffusion (performOnState shiftRows) s := rfl
theorem exec_invshr (s : State) : exec .invshr s = familyCommand .diffusion (performOnState invShiftRows) s := rfl
theorem exec_mix (s : State) : exec .mix s = familyCommand .diffusion (performOnState mixColumns) s := rfl
theorem exec_invmix (s : State) : exec .invmix s = familyCommand .diffusion (performOnState invMixColumns) s := rfl
theorem exec_expand (klen blen : Byte) (s : State) :
    exec (.expand klen blen) s = familyCommand .keySchedule (performExpand klen blen) s := rfl
theorem exec_ark {k : Byte} {s : State} {key : Block} {w : Bool} (h : roundKeyOperand k s = some (key, w)) :
    exec (.ark k) s = familyCommand .confusion (performArk key w) s := by
  simp only [exec, execArk, h]
theorem exec_select {fam : Byte} {fs : List Family} (s : State) (h : selectedFamilies fam = some fs) :
    exec (.select fam) s = .next (finishSelect (bindEach fs s)) := by
  simp only [exec, execSelect, h]

/-- A command that replaces STATE by a function of STATE, its family available: the whole next state (R105, R123, R124,
R143 to R146). -/
theorem performOnState_next {f : Family} {g : Block → Block} {s : State} (h : familyAvailable f s = true) :
    ∃ s1, bindFamily f s = some s1 ∧ familyCommand f (performOnState g) s =
      .next (completeCommand (writeStateReg (g s.stateReg.bytes) (recordUnwritten (isWritten s.stateReg) s1))) := by
  obtain ⟨s1, h1, h2⟩ := familyCommand_of_available (performOnState g) h
  have h3 : s1.stateReg = s.stateReg := by rw [(bindFamily_extends h1).1]
  exact ⟨s1, h1, by rw [h2, performOnState, h3]⟩

/-- ARK with a legal selector, its family available: the whole next state (R125). -/
theorem performArk_next {key : Block} {w : Bool} {s : State} (h : familyAvailable .confusion s = true) :
    ∃ s1, bindFamily .confusion s = some s1 ∧ familyCommand .confusion (performArk key w) s =
      .next (completeCommand (writeStateReg (xorBlock s.stateReg.bytes key)
        (recordUnwritten (isWritten s.stateReg && w) s1))) := by
  obtain ⟨s1, h1, h2⟩ := familyCommand_of_available (performArk key w) h
  have h3 : s1.stateReg = s.stateReg := by rw [(bindFamily_extends h1).1]
  exact ⟨s1, h1, by rw [h2, performArk, h3]⟩

/-- The four ways a command can end: it fails and at most binds (R202, R209), it is SELECT and binds, it writes STATE, or it
is the well-formed EXPAND and writes EK. -/
def CommandEnds (i : Instr) (s t : State) : Prop :=
  ∃ b, BindExtends s { s with bindings := b } ∧
    ((∃ e, e ≠ .ok ∧ t = { s with err := e, bindings := b }) ∨
     (commandFamily i = none ∧ t = { s with err := .ok, bindings := b }) ∨
     ((commandFamily i = some .confusion ∨ commandFamily i = some .diffusion) ∧
       ∃ f w, t = completeCommand (writeStateReg f (recordUnwritten w { s with bindings := b })) ∧
         (w = true → isWritten s.stateReg = true)) ∨
     (i = .expand 16#8 176#8 ∧
       t = completeCommand (writeExpandedKey (expandKey s.keyReg.bytes)
         (recordUnwritten (isWritten s.keyReg) { s with bindings := b }))))

/-- Everything a command can do. -/
theorem exec_cases {i : Instr} {s t : State} (h : exec i s = .next t) : CommandEnds i s t := by
  have refl : BindExtends s { s with bindings := s.bindings } := BindExtends.refl s
  have onState : ∀ (f : Family) (g : State → Block) (w : State → Bool),
      (commandFamily i = some .confusion ∨ commandFamily i = some .diffusion) →
      (∀ b, w { s with bindings := b } = true → isWritten s.stateReg = true) →
      familyCommand f (fun s => .ok (writeStateReg (g s) (recordUnwritten (w s) s))) s = .next t → CommandEnds i s t := by
    intro f g w hi hw h
    obtain ⟨-, rfl⟩ | ⟨s1, h1, ⟨e, he, -⟩ | ⟨s2, h2, rfl⟩⟩ := familyCommand_next h
    · exact ⟨s.bindings, refl, .inl ⟨_, by decide, rfl⟩⟩
    · cases he
    · have hb := bindFamily_extends h1
      have h3 := hb.1
      cases h2
      refine ⟨s1.bindings, by rwa [← h3], .inr (.inr (.inl ⟨hi, g s1, w s1, by rw [← h3], ?_⟩))⟩
      intro hw1
      exact hw s1.bindings (by rwa [← h3])
  cases i with
  | sub => exact onState .confusion (fun s => mapBytes sbox s.stateReg.bytes) (fun s => isWritten s.stateReg) (.inl rfl) (fun _ => id) h
  | invsub => exact onState .confusion (fun s => mapBytes invSbox s.stateReg.bytes) (fun s => isWritten s.stateReg) (.inl rfl) (fun _ => id) h
  | ark k =>
    simp only [exec, execArk] at h
    split at h
    · cases h; exact ⟨s.bindings, refl, .inl ⟨_, by decide, rfl⟩⟩
    · rename_i key kw hk
      exact onState .confusion (fun s => xorBlock s.stateReg.bytes key) (fun s => isWritten s.stateReg && kw) (.inl rfl)
        (fun _ h => by simp at h; exact h.1) h
  | shr => exact onState .diffusion (fun s => shiftRows s.stateReg.bytes) (fun s => isWritten s.stateReg) (.inr rfl) (fun _ => id) h
  | invshr => exact onState .diffusion (fun s => invShiftRows s.stateReg.bytes) (fun s => isWritten s.stateReg) (.inr rfl) (fun _ => id) h
  | mix => exact onState .diffusion (fun s => mixColumns s.stateReg.bytes) (fun s => isWritten s.stateReg) (.inr rfl) (fun _ => id) h
  | invmix => exact onState .diffusion (fun s => invMixColumns s.stateReg.bytes) (fun s => isWritten s.stateReg) (.inr rfl) (fun _ => id) h
  | expand klen blen =>
    simp only [exec, execExpand] at h
    obtain ⟨-, rfl⟩ | ⟨s1, h1, ⟨e, he, rfl⟩ | ⟨s2, h2, rfl⟩⟩ := familyCommand_next h
    · exact ⟨s.bindings, refl, .inl ⟨_, by decide, rfl⟩⟩
    all_goals
      have hb := bindFamily_extends h1
      have h3 := hb.1
      refine ⟨s1.bindings, by rwa [← h3], ?_⟩
    · refine .inl ⟨e, ?_, by rw [h3]; rfl⟩
      rintro rfl
      simp only [performExpand, expandSizeError] at he
      split at he
      · rename_i h4; split at h4 <;> [skip; split at h4] <;> cases h4 <;> cases he
      · cases he
    · refine .inr (.inr (.inr ?_))
      simp only [performExpand, expandSizeError] at h2
      split at h2
      · cases h2
      · rename_i h4
        split at h4
        · cases h4
        · split at h4
          · cases h4
          · rename_i h5 h6
            simp only [not_not, ne_eq] at h5 h6
            cases h2
            refine ⟨by rw [h5, h6], ?_⟩
            have hk : s1.keyReg = s.keyReg := by rw [h3]
            rw [← h3, hk]
  | select fam =>
    simp only [exec, execSelect] at h
    split at h
    · cases h; exact ⟨s.bindings, refl, .inl ⟨_, by decide, rfl⟩⟩
    · rename_i fs hfs
      have hb := bindEach_extends fs s
      have h3 := hb.1
      cases h
      refine ⟨(bindEach fs s).1.bindings, by rwa [← h3], ?_⟩
      unfold finishSelect
      split
      · exact .inr (.inl ⟨rfl, by rw [h3]; rfl⟩)
      · exact .inl ⟨.unsupportedVariant, by decide, by rw [h3]; rfl⟩

end Sys2Proof.Machine
end

