-- ==== Sys2Proof/Laws/PerInstr.lean ====
section
/-!
SUPPORT. Statements about every command as syntax, one lemma per constructor: the match and mask of spec/opcode_table.json.
-/

namespace Sys2Proof.Laws.EncodingMatch

/-- The mask of a command's row (30_encoding.md R83). -/
def mask (i : Instr) : Word :=
  match i with
  | .sub => 0xFFFFFFFF#32
  | .invsub => 0xFFFFFFFF#32
  | .ark _ => 0xFFFF00FF#32
  | .shr => 0xFFFFFFFF#32
  | .invshr => 0xFFFFFFFF#32
  | .mix => 0xFFFFFFFF#32
  | .invmix => 0xFFFFFFFF#32
  | .expand _ _ => 0xFF0000FF#32
  | .select _ => 0xFFFF00FF#32

/-- The match of a command's row (30_encoding.md R83). -/
def matchWord (i : Instr) : Word :=
  match i with
  | .sub => 0x00000001#32
  | .invsub => 0x00000002#32
  | .ark _ => 0x00000003#32
  | .shr => 0x00000011#32
  | .invshr => 0x00000012#32
  | .mix => 0x00000013#32
  | .invmix => 0x00000014#32
  | .expand _ _ => 0x00000021#32
  | .select _ => 0x00000030#32

/-- The encoding of the command has the match of its row under the mask of its row, whatever its operands. -/
def Statement (i : Instr) : Prop := encode i &&& mask i = matchWord i

theorem sub : Statement .sub := by unfold Statement; decide
theorem invsub : Statement .invsub := by unfold Statement; decide
theorem ark (rksel : Byte) : Statement (.ark rksel) := by
  revert rksel; unfold Statement; decide
theorem shr : Statement .shr := by unfold Statement; decide
theorem invshr : Statement .invshr := by unfold Statement; decide
theorem mix : Statement .mix := by unfold Statement; decide
theorem invmix : Statement .invmix := by unfold Statement; decide
theorem expand (klen blen : Byte) : Statement (.expand klen blen) := by
  simp only [Statement, encode, assemble, mask, matchWord]
  ext n hn
  simp only [BitVec.getElem_and, BitVec.getElem_append]
  interval_cases n <;> simp
theorem select (fam : Byte) : Statement (.select fam) := by
  revert fam; unfold Statement; decide

end Sys2Proof.Laws.EncodingMatch
end

