-- ==== Sys2Proof/Laws/Window.lean ====
section
/-!
SUPPORT. The register window and the port: byte order within a word, where each register stands, and everything a step can
do.
-/

namespace Sys2Proof.Machine

/-- A word read back from the bytes a write stored is the word written (R55). -/
@[simp] theorem packWord_unpackWord (w : Word) : packWord (unpackWord w) = w := by
  simp only [packWord, unpackWord]
  ext n hn
  simp only [BitVec.getElem_append, BitVec.getElem_extractLsb']
  split <;> [skip; split <;> [skip; split]] <;> rw [← BitVec.getLsbD_eq_getElem] <;> congr 1 <;> omega

/-- Byte `k` of the bytes a write stores is bits `8k+7:8k` (R53). -/
theorem unpackWord_get (w : Word) (k : Fin 4) : (unpackWord w).get k = w.extractLsb' (8 * k.val) 8 := by
  match k with
  | 0 | 1 | 2 | 3 => rfl

@[simp] theorem acceptedReg_of_width {off : BitVec 9} {bits : Nat} (h : bits ≠ 32) : acceptedReg off bits = none := by
  simp [acceptedReg, h]

@[simp] theorem acceptedReg_32 (off : BitVec 9) : acceptedReg off 32 = windowReg off := rfl

theorem windowReg_misaligned {off : BitVec 9} (h : off.toNat % 4 ≠ 0) : windowReg off = none := by
  simp [windowReg, h]

/-- CMD stands at offset 0 only (R51). -/
theorem windowReg_eq_cmd {off : BitVec 9} (h : windowReg off = some .cmd) : off = 0#9 := by
  apply BitVec.eq_of_toNat_eq
  unfold windowReg at h
  repeat' split at h
  all_goals simp_all

theorem windowReg_stateWord {off : BitVec 9} (j : Fin 4) (h : off.toNat = 0x020 + 4 * j.val) :
    windowReg off = some (.stateWord j) := by
  have : off = BitVec.ofNat 9 (0x020 + 4 * j.val) := by rw [← h]; simp
  subst this; clear h; revert j; decide

theorem windowReg_rkeyWord {off : BitVec 9} (j : Fin 4) (h : off.toNat = 0x030 + 4 * j.val) :
    windowReg off = some (.rkeyWord j) := by
  have : off = BitVec.ofNat 9 (0x030 + 4 * j.val) := by rw [← h]; simp
  subst this; clear h; revert j; decide

theorem windowReg_keyWord {off : BitVec 9} (j : Fin 4) (h : off.toNat = 0x040 + 4 * j.val) :
    windowReg off = some (.keyWord j) := by
  have : off = BitVec.ofNat 9 (0x040 + 4 * j.val) := by rw [← h]; simp
  subst this; clear h; revert j; decide

theorem windowReg_ekWord {off : BitVec 9} (i : Fin 44) (h : off.toNat = 0x100 + 4 * i.val) :
    windowReg off = some (.ekWord i) := by
  have : off = BitVec.ofNat 9 (0x100 + 4 * i.val) := by rw [← h]; simp
  subst this; clear h; revert i; decide

/-- Everything `Execute` can do with a word (R105). -/
theorem execute_cases {w : Word} {s t : State} (h : execute w s = .next t) :
    (∃ r, decode w = .error r ∧ t = raiseError .illegalCommand s) ∨ (∃ i, decode w = .ok i ∧ exec i s = .next t) := by
  unfold execute at h
  split at h
  · rename_i r hr; cases h; exact .inl ⟨r, hr, rfl⟩
  · rename_i i hi; exact .inr ⟨i, hi, h⟩

/-- A write to a register other than CMD changes only OVERRIDE or one data register of the host's (R53). -/
inductive HostWrite (s : State) : State → Prop where
  | ignored : HostWrite s s
  | override (t : BitVec 3) : HostWrite s { s with overrideTier := t }
  | stateWord (j : Fin 4) (v : Word) : HostWrite s { s with stateReg := setRegWord s.stateReg j v }
  | rkeyWord (j : Fin 4) (v : Word) : HostWrite s { s with rkeyReg := setRegWord s.rkeyReg j v }
  | keyWord (j : Fin 4) (v : Word) : HostWrite s { s with keyReg := setRegWord s.keyReg j v }

theorem windowWrite_cases {r : WindowReg} {v : Word} {s t : State} (hr : r ≠ .cmd) (h : windowWrite r v s = .next t) :
    HostWrite s t := by
  cases r with
  | cmd => exact absurd rfl hr
  | override => cases h; exact .override _
  | stateWord j => cases h; exact .stateWord j v
  | rkeyWord j => cases h; exact .rkeyWord j v
  | keyWord j => cases h; exact .keyWord j v
  | status | cap | bind | ekWord i => cases h; exact .ignored

/-- Everything a step can do: idle, a read, a reset, a rejected write, a write to a register other than CMD, or a command. -/
inductive StepIs (s : State) : State → Prop where
  | idle : s.port = [] → StepIs s (takeAccess [] s)
  | read (off : BitVec 9) (bits : Nat) (rest : List PortEvent) :
      s.port = .read off bits :: rest → StepIs s (regRead off bits (takeAccess rest s))
  | reset (rest : List PortEvent) : s.port = .reset :: rest → StepIs s (resetEvent (takeAccess rest s))
  | rejected (off : BitVec 9) (bits : Nat) (v : Word) (rest : List PortEvent) :
      s.port = .write off bits v :: rest → acceptedReg off bits = none →
      StepIs s (respond (.busError off) (takeAccess rest s))
  | hostWrite (off : BitVec 9) (v : Word) (r : WindowReg) (rest : List PortEvent) (t : State) :
      s.port = .write off 32 v :: rest → windowReg off = some r → r ≠ .cmd →
      windowWrite r v (respond .writeDone (takeAccess rest s)) = .next t → StepIs s t
  | command (w : Word) (rest : List PortEvent) (t : State) :
      s.port = .write 0x000#9 32 w :: rest → execute w (respond .writeDone (takeAccess rest s)) = .next t → StepIs s t

theorem step_cases {s t : State} (h : step s = .next t) : StepIs s t := by
  unfold step serviceNext at h
  split at h
  · rename_i hp; cases h; exact .idle hp
  · rename_i e rest hp
    cases e with
    | read off bits => cases h; exact .read off bits rest hp
    | reset => cases h; exact .reset rest hp
    | write off bits v =>
      simp only [service, regWrite] at h
      split at h
      · rename_i ha; cases h; exact .rejected off bits v rest hp ha
      · rename_i r ha
        have hb : bits = 32 := by
          apply Classical.byContradiction
          intro hb
          simp [hb] at ha
        subst hb
        by_cases hr : r = .cmd
        · subst hr
          have := windowReg_eq_cmd ha
          subst this
          exact .command v rest t hp h
        · exact .hostWrite off v r rest t hp ha hr h

/-- What a command word at CMD leads to: the step is `Execute` on the acknowledged access (R53, R105). -/
theorem step_command {s : State} {w : Word} {rest : List PortEvent} (h : s.port = .write 0x000#9 32 w :: rest) :
    step s = execute w (respond .writeDone (takeAccess rest s)) := by
  simp only [step, serviceNext, h]; rfl

end Sys2Proof.Machine
end

