-- ==== Sys2Proof/Tests/Slice0.lean ====
section
/-!
SUPPORT. The model's own tests. Every expected value is one of spec/95_test_vectors.md or of the example of the rule named in
its comment; the second half shows, for each statement with hypotheses, a state and operands that meet them together.
-/

namespace Sys2Proof.Tests
open Sys2Proof Sys2Proof.Machine

/-! ### Small states -/

/-- A 16-byte value from its hex string, byte 0 first (R12). -/
def hexBlock (v : BitVec 128) : Block :=
  Quad.ofFn fun c => Quad.ofFn fun r => v.extractLsb' (8 * (15 - (r.val + 4 * c.val))) 8

/-- A data register with all four words written. -/
def full (v : BitVec 128) : DataReg := { bytes := hexBlock v, written := Quad.replicate true }

/-- All three families bound to Scalar. -/
def allScalar : Bindings := { confusion := some .scalar, diffusion := some .scalar, keySchedule := some .scalar }

/-- Reset with every tier present and every family bound. -/
def bound : State := { State.resetWith 0b111#3 with bindings := allScalar }

/-- `bound` with STATE written. -/
def withState (v : BitVec 128) : State := { bound with stateReg := full v }

/-- `bound` with KEY written. -/
def withKey (v : BitVec 128) : State := { bound with keyReg := full v }

/-- Scalar and Tier1 present, nothing bound, OVERRIDE.TIER = `t`. -/
def twoTiers (t : BitVec 3) : State := { State.resetWith 0b001#3 with overrideTier := t }

/-- `s` with accesses waiting at the port. -/
def at_ (s : State) (es : List PortEvent) : State := { s with port := es }

/-- A host write of a command word. -/
def cmd (w : Word) : PortEvent := .write 0x000#9 32 w

/-- The state a step answers. -/
def after (s : State) : State :=
  match step s with
  | .next t => t
  | .fault _ => s
  | .refused _ => s

/-- A step answered a next state with the wanted STATE, ERR and no recorded fault. -/
def stateAfter (s : State) (w : Word) : Block × ErrCode × Option Fault :=
  let t := after (at_ s [cmd w])
  (t.stateReg.bytes, t.err, t.modelFault)

/-- EK words 0, 4, 40 and 43 as a host reads them, ERR and EKV after a command. -/
def ekAfter (s : State) (w : Word) : Quad Word × ErrCode × Bool :=
  let t := after (at_ s [cmd w])
  (⟨packWord (t.ekReg.word 0), packWord (t.ekReg.word 4), packWord (t.ekReg.word 40), packWord (t.ekReg.word 43)⟩,
   t.err, t.ekv)

/-- ERR and BIND after a command. -/
def bindAfter (s : State) (w : Word) : ErrCode × Word :=
  let t := after (at_ s [cmd w])
  (t.err, bindWord t)

/-- The response to one access. -/
def answer (s : State) (e : PortEvent) : Option PortResponse := (after (at_ s [e])).resp

/-! ### Well-formed commands: one ill-formed term for each check -/

/-- R83: RKSEL 0x0B to 0xFE is not legal; its ends and neighbours. -/
theorem test_wellFormed_ark :
    wellFormed (.ark 11#8) = false ∧ wellFormed (.ark 254#8) = false ∧
    wellFormed (.ark 10#8) = true ∧ wellFormed (.ark 255#8) = true := by decide

/-- R83: FAM above 3 is not legal. -/
theorem test_wellFormed_select :
    wellFormed (.select 4#8) = false ∧ wellFormed (.select 255#8) = false ∧ wellFormed (.select 3#8) = true := by decide

/-! ### Decoding: each word written out bit by bit, fields Z, B, A, OP (R80, R82) -/

theorem test_decode_sub : decode 0b00000000_00000000_00000000_00000001#32 = .ok .sub := by decide
theorem test_decode_invsub : decode 0b00000000_00000000_00000000_00000010#32 = .ok .invsub := by decide
theorem test_decode_ark_10 : decode 0b00000000_00000000_00001010_00000011#32 = .ok (.ark 10#8) := by decide
theorem test_decode_ark_rkey : decode 0b00000000_00000000_11111111_00000011#32 = .ok (.ark 0xFF#8) := by decide
theorem test_decode_shr : decode 0b00000000_00000000_00000000_00010001#32 = .ok .shr := by decide
theorem test_decode_invshr : decode 0b00000000_00000000_00000000_00010010#32 = .ok .invshr := by decide
theorem test_decode_mix : decode 0b00000000_00000000_00000000_00010011#32 = .ok .mix := by decide
theorem test_decode_invmix : decode 0b00000000_00000000_00000000_00010100#32 = .ok .invmix := by decide
theorem test_decode_expand : decode 0b00000000_10110000_00010000_00100001#32 = .ok (.expand 16#8 176#8) := by decide
theorem test_decode_select_all : decode 0b00000000_00000000_00000011_00110000#32 = .ok (.select 3#8) := by decide

/-- TC1 to TC7, TA8, TK9, TX5: the illegal words, with the case of R85 each falls under. -/
theorem test_decode_illegal :
    decode 0x00000000#32 = .error .unassignedOpcode ∧ decode 0x01000001#32 = .error .reservedBitsSet ∧
    decode 0x00000101#32 = .error .unusedFieldSet ∧ decode 0x00010001#32 = .error .unusedFieldSet ∧
    decode 0x000000FF#32 = .error .unassignedOpcode ∧ decode 0x00000004#32 = .error .unassignedOpcode ∧
    decode 0x00000B03#32 = .error .roundKeySelector ∧ decode 0x00010A03#32 = .error .unusedFieldSet ∧
    decode 0x01B01021#32 = .error .reservedBitsSet ∧ decode 0x00000430#32 = .error .familySelector ∧
    decode 0x00010030#32 = .error .unusedFieldSet := by decide

/-- The words of E10, TK5 to TK8 and TX3 with operands. -/
theorem test_decode_operands :
    decode 0x00B00F21#32 = .ok (.expand 15#8 176#8) ∧ decode 0x00AF1021#32 = .ok (.expand 16#8 175#8) ∧
    decode 0x00000021#32 = .ok (.expand 0#8 0#8) ∧ decode 0x00000130#32 = .ok (.select 1#8) ∧
    decode 0x00000903#32 = .ok (.ark 9#8) := by decide

/-- The opcode table's rows as the host asks for them. -/
theorem test_decodeTableWord :
    decodeTableWord 32 0x13 = some .mix ∧ decodeTableWord 32 0x00B01021 = some (.expand 16#8 176#8) ∧
    decodeTableWord 32 0x04 = none := by decide

/-! ### The confusion unit -/

/-- TS1. -/
theorem test_sub_TS1 : stateAfter (withState 0x000102030405060708090a0b0c0d0e0f#128) 0x00000001#32 =
    (hexBlock 0x637c777bf26b6fc53001672bfed7ab76#128, .ok, none) := by decide +kernel

/-- TS7: round 1 of the FIPS-197 trace. -/
theorem test_sub_TS7 : stateAfter (withState 0x193de3bea0f4e22b9ac68d2ae9f84808#128) 0x00000001#32 =
    (hexBlock 0xd42711aee0bf98f1b8b45de51e415230#128, .ok, none) := by decide +kernel

/-- TS4. -/
theorem test_invsub_TS4 : stateAfter (withState 0x637c777bf26b6fc53001672bfed7ab76#128) 0x00000002#32 =
    (hexBlock 0x000102030405060708090a0b0c0d0e0f#128, .ok, none) := by decide +kernel

/-- TS6. -/
theorem test_invsub_TS6 : stateAfter (withState 0#128) 0x00000002#32 =
    (hexBlock 0x52525252525252525252525252525252#128, .ok, none) := by decide +kernel

/-- TA1. -/
theorem test_ark_TA1 : stateAfter
      { withState 0x00112233445566778899aabbccddeeff#128 with rkeyReg := full 0x000102030405060708090a0b0c0d0e0f#128 }
      0x0000FF03#32 =
    (hexBlock 0x00102030405060708090a0b0c0d0e0f0#128, .ok, none) := by decide +kernel

/-- TA6: the last round key of the key of E8. -/
theorem test_ark_TA6 : stateAfter
      { withState 0xe9317db5cb322c723d2e895faf090794#128 with
        ekReg := expandKey (hexBlock 0x2b7e151628aed2a6abf7158809cf4f3c#128), ekv := true }
      0x00000A03#32 =
    (hexBlock 0x3925841d02dc09fbdc118597196a0b32#128, .ok, none) := by decide +kernel

/-- TA9, TA10: a round key not written is recorded, and the run goes on (log entry 2). -/
theorem test_ark_unwritten :
    (stateAfter (withState 0#128) 0x00000303#32).2.2 = some .readUnwritten ∧
    (stateAfter { withState 0#128 with rkeyReg := { full 0#128 with written := ⟨true, true, false, true⟩ } }
      0x0000FF03#32).2.2 = some .readUnwritten := by decide +kernel

/-! ### The diffusion unit -/

/-- TD1. -/
theorem test_shr_TD1 : stateAfter (withState 0x000102030405060708090a0b0c0d0e0f#128) 0x00000011#32 =
    (hexBlock 0x00050a0f04090e03080d02070c01060b#128, .ok, none) := by decide +kernel

/-- TD2. -/
theorem test_invshr_TD2 : stateAfter (withState 0x000102030405060708090a0b0c0d0e0f#128) 0x00000012#32 =
    (hexBlock 0x000d0a0704010e0b0805020f0c090603#128, .ok, none) := by decide +kernel

/-- TD5. -/
theorem test_mix_TD5 : stateAfter (withState 0xdb135345f20a225c01010101c6c6c6c6#128) 0x00000013#32 =
    (hexBlock 0x8e4da1bc9fdc589d01010101c6c6c6c6#128, .ok, none) := by decide +kernel

/-- TD7. -/
theorem test_mix_TD7 : stateAfter (withState 0xd4d4d4d52d26314c00000000ffffffff#128) 0x00000013#32 =
    (hexBlock 0xd5d5d7d64d7ebdf800000000ffffffff#128, .ok, none) := by decide +kernel

/-- TD6. -/
theorem test_invmix_TD6 : stateAfter (withState 0x8e4da1bc9fdc589d01010101c6c6c6c6#128) 0x00000014#32 =
    (hexBlock 0xdb135345f20a225c01010101c6c6c6c6#128, .ok, none) := by decide +kernel

/-- TD9. -/
theorem test_invmix_TD9 : stateAfter (withState 0x01000000010000000100000001000000#128) 0x00000014#32 =
    (hexBlock 0x0e090d0b0e090d0b0e090d0b0e090d0b#128, .ok, none) := by decide +kernel

/-- The table of field operations of the diffusion vectors. -/
theorem test_field_operations :
    xtime 0x57#8 = 0xAE#8 ∧ xtime 0xAE#8 = 0x47#8 ∧ xtime 0x80#8 = 0x1B#8 ∧ xtime 0xFF#8 = 0xE5#8 ∧
    gmul 0x13#8 0x57#8 = 0xFE#8 ∧ gmul 3#8 0x80#8 = 0x9B#8 ∧ gmul 9#8 0xFF#8 = 0x46#8 ∧
    gmul 11#8 0xFF#8 = 0xA3#8 ∧ gmul 13#8 0xFF#8 = 0x97#8 ∧ gmul 14#8 0xFF#8 = 0x8D#8 := by decide

/-! ### The key-schedule unit -/

/-- TK1, the example of R162. -/
theorem test_expand_TK1 : ekAfter (withKey 0x2b7e151628aed2a6abf7158809cf4f3c#128) 0x00B01021#32 =
    (⟨0x16157e2b#32, 0x17fefaa0#32, 0xa8f914d0#32, 0xa60c63b6#32⟩, .ok, true) := by decide +kernel

/-- TK3. -/
theorem test_expand_TK3 :
    let r := ekAfter (withKey 0x000102030405060708090a0b0c0d0e0f#128) 0x00B01021#32
    r.1.e2 = 0x7f1d1113#32 ∧ r.1.e3 = 0xc5302b4d#32 := by decide +kernel

/-- TK4 to TK8: the size errors, and EKV unchanged. -/
theorem test_expand_errors :
    (ekAfter bound 0x00B01121#32).2 = (.invalidKeySize, false) ∧
    (ekAfter bound 0x00B00F21#32).2 = (.invalidKeySize, false) ∧
    (ekAfter bound 0x00AF1021#32).2 = (.invalidExpandedKeyBufferSize, false) ∧
    (ekAfter bound 0x00AF0F21#32).2 = (.invalidKeySize, false) ∧
    (ekAfter bound 0x00000021#32).2 = (.invalidKeySize, false) := by decide +kernel

/-! ### The dispatcher -/

/-- TX1: the outcome of Bind by TIERS and OVERRIDE.TIER, rows 0b0011, 0b0101 and 0b0001. -/
theorem test_bind_TX1 :
    [0#3, 1#3, 2#3, 3#3, 4#3, 5#3, 6#3, 7#3].map (chooseVariant 0b0011#4) =
      [some .tier1, some .scalar, some .tier1, none, none, none, none, none] ∧
    [0#3, 1#3, 2#3, 3#3, 4#3, 5#3, 6#3, 7#3].map (chooseVariant 0b0101#4) =
      [some .tier2, some .scalar, none, some .tier2, none, none, none, none] ∧
    [0#3, 1#3, 2#3, 3#3, 4#3, 5#3, 6#3, 7#3].map (chooseVariant 0b0001#4) =
      [some .scalar, some .scalar, none, none, none, none, none, none] := by decide

/-- TX2: BIND after SELECT ALL from reset, TIERS = 0b0101, 0b0001 and 0b1111. -/
theorem test_select_TX2 :
    bindAfter (State.resetWith 0b010#3) 0x00000330#32 = (.ok, 0x00060606#32) ∧
    bindAfter (State.resetWith 0b000#3) 0x00000330#32 = (.ok, 0x00040404#32) ∧
    bindAfter (State.resetWith 0b111#3) 0x00000330#32 = (.ok, 0x00070707#32) := by decide +kernel

/-- TX3, TX4: a bound family ignores OVERRIDE; an unbound one fails under it. -/
theorem test_select_TX3_TX4 :
    let s := { twoTiers 4#3 with bindings := { confusion := some .tier1, diffusion := none, keySchedule := none } }
    bindAfter (twoTiers 2#3) 0x00000030#32 = (.ok, 0x00000005#32) ∧
    bindAfter s 0x00000030#32 = (.ok, 0x00000005#32) ∧
    bindAfter s 0x00000130#32 = (.unsupportedVariant, 0x00000005#32) ∧
    bindAfter s 0x00000330#32 = (.unsupportedVariant, 0x00000005#32) := by decide +kernel

/-- TC8 to TC11, TX5: which error is raised first. -/
theorem test_error_priority :
    bindAfter (twoTiers 4#3) 0x00000103#32 = (.unsupportedVariant, 0#32) ∧
    bindAfter (twoTiers 4#3) 0x00B00F21#32 = (.unsupportedVariant, 0#32) ∧
    bindAfter (twoTiers 4#3) 0x01B00F21#32 = (.illegalCommand, 0#32) ∧
    (bindAfter bound 0x00AF0F21#32).1 = .invalidKeySize ∧
    bindAfter (twoTiers 0#3) 0x00000430#32 = (.illegalCommand, 0#32) := by decide +kernel

/-- P3 step 13, with family 0 still unbound: EXPAND 15, 176 binds the key-schedule family and then raises
InvalidKeySize. -/
theorem test_failed_expand_binds : bindAfter (twoTiers 1#3) 0x00B00F21#32 = (.invalidKeySize, 0x00040000#32) := by
  decide +kernel

/-! ### The register window and reset -/

/-- TM1: the byte order of a data-register word. -/
theorem test_write_TM1 : (after (at_ bound [.write 0x020#9 32 0xa8f64332#32])).stateReg.bytes.e0 =
    ⟨0x32#8, 0x43#8, 0xf6#8, 0xa8#8⟩ := by decide +kernel

/-- TM3: the four words of STATE. -/
theorem test_read_TM3 :
    let s := withState 0x3925841d02dc09fbdc118597196a0b32#128
    answer s (.read 0x020#9 32) = some (.readData 0x1d842539#32) ∧
    answer s (.read 0x024#9 32) = some (.readData 0xfb09dc02#32) ∧
    answer s (.read 0x028#9 32) = some (.readData 0x978511dc#32) ∧
    answer s (.read 0x02C#9 32) = some (.readData 0x320b6a19#32) := by decide +kernel

/-- TM5 to TM10: writes that are ignored or lose their upper bits. -/
theorem test_write_readOnly :
    let ignores := fun off v => after (at_ bound [.write off 32 v]) = { bound with resp := some .writeDone }
    ignores 0x004#9 0xFFFFFFFF#32 ∧ ignores 0x008#9 0#32 ∧ ignores 0x010#9 0xFFFFFFFF#32 ∧
    ignores 0x100#9 0x12345678#32 ∧
    overrideWord (after (at_ bound [.write 0x00C#9 32 0xFFFFFFFD#32])) = 5#32 ∧
    answer bound (.read 0x000#9 32) = some (.readData 0#32) := by decide +kernel

/-- TM11 to TM13: BusError at the ends of each unmapped range, at a misaligned offset and for other widths. -/
theorem test_busError :
    let rejects := fun e off => after (at_ bound [e]) = { bound with resp := some (.busError off) }
    rejects (.read 0x014#9 32) 0x014#9 ∧ rejects (.read 0x01C#9 32) 0x01C#9 ∧ rejects (.read 0x050#9 32) 0x050#9 ∧
    rejects (.read 0x0FC#9 32) 0x0FC#9 ∧ rejects (.read 0x1B0#9 32) 0x1B0#9 ∧ rejects (.write 0x1FC#9 32 0#32) 0x1FC#9 ∧
    rejects (.read 0x002#9 32) 0x002#9 ∧ rejects (.write 0x020#9 8 0xFF#32) 0x020#9 ∧
    rejects (.read 0x020#9 16) 0x020#9 := by decide +kernel

/-- TM14, TM15: a read of an unwritten word is recorded. -/
theorem test_read_unwritten :
    (after (at_ bound [.read 0x100#9 32])).modelFault = some .readUnwritten ∧
    (after (at_ bound [.read 0x020#9 32])).modelFault = some .readUnwritten ∧
    (after (at_ bound [.read 0x004#9 32])).modelFault = none := by decide +kernel

/-- The reset table: STATUS, CAP for TIERS = 0b1111, OVERRIDE and BIND. -/
theorem test_reset_event :
    let t := after (at_ { withState 0#128 with err := .illegalCommand, ekv := true, overrideTier := 5#3 } [.reset])
    statusWord t = 0#32 ∧ capWord t = 0xF#32 ∧ overrideWord t = 0#32 ∧ bindWord t = 0#32 ∧
    t.stateReg.written = Quad.replicate false := by decide +kernel

/-- A command placed as the first instruction after reset runs, whatever TIERS is. -/
theorem test_first_instruction :
    let t := after (State.reset.withFetchWord 32 0x00000330)
    t.err = .ok ∧ t.bindings.confusion.isSome = true ∧ t.port = [] := by
  unfold State.reset
  generalize Config.vecTiers = v
  revert v
  decide +kernel

/-! ### Witnesses: for each statement with hypotheses, a state and operands that meet all of them

Named `hyp_<statement>`; a statement with several clauses has one for each clause, at the ends of its range. -/

/-- A state in which the port is about to service a SELECT of the confusion family, which completes. -/
def selecting : State := at_ (twoTiers 0#3) [cmd 0x00000030#32]

/-- OVERRIDE.TIER = 5 with nothing bound: no family is available. -/
def nothingAvailable : State := twoTiers 5#3

theorem hyp_DecodeOfEncodeIsTheCommand :
    wellFormed (.ark 0#8) = true ∧ wellFormed (.ark 10#8) = true ∧ wellFormed (.ark 255#8) = true ∧
    wellFormed (.select 0#8) = true ∧ wellFormed (.select 3#8) = true ∧ wellFormed (.expand 0#8 255#8) = true := by
  decide

theorem hyp_EveryLegalWordIsAnEncoding :
    decode 0x00FF0021#32 = .ok (.expand 0#8 255#8) ∧ decode 0x00000003#32 = .ok (.ark 0#8) := by decide

theorem hyp_IllegalWordsOnlySetErr : ∀ i, decode 0x00000B03#32 ≠ .ok i := by
  intro i h
  cases test_decode_illegal.2.2.2.2.2.2.1.symm.trans h

theorem hyp_StepRunsTheDecodedCommand :
    (at_ bound [cmd 0x00000001#32]).port = .write 0x000#9 32 0x00000001#32 :: [] ∧
    decode 0x00000001#32 = .ok .sub := ⟨rfl, by decide⟩

theorem hyp_ResetEventReturnsToReset : (at_ bound [.reset]).port = .reset :: [] := rfl

/-- Each clause of ReadReturnsRegister, at the ends of its range; `at_ bound` puts any read at the port. -/
theorem hyp_ReadReturnsRegister (off : BitVec 9) : (at_ bound [.read off 32]).port = .read off 32 :: [] := rfl

theorem hyp_ReadReturnsRegister_clauses :
    (0x020#9).toNat = 0x020 + 4 * (0 : Fin 4).val ∧ (0x02C#9).toNat = 0x020 + 4 * (3 : Fin 4).val ∧
    (0x030#9).toNat = 0x030 + 4 * (0 : Fin 4).val ∧ (0x03C#9).toNat = 0x030 + 4 * (3 : Fin 4).val ∧
    (0x040#9).toNat = 0x040 + 4 * (0 : Fin 4).val ∧ (0x04C#9).toNat = 0x040 + 4 * (3 : Fin 4).val ∧
    (0x100#9).toNat = 0x100 + 4 * (0 : Fin 44).val ∧ (0x1AC#9).toNat = 0x100 + 4 * (43 : Fin 44).val := by decide

/-- The clauses of WriteEffectByRegister range over the same offsets as those of ReadReturnsRegister. -/
theorem hyp_WriteEffectByRegister (off : BitVec 9) (v : Word) :
    (at_ bound [.write off 32 v]).port = .write off 32 v :: [] := rfl

/-- Each case of BusErrorChangesNothing at its ends. -/
theorem hyp_BusErrorChangesNothing :
    (0x001#9).toNat % 4 ≠ 0 ∧ (0x1FF#9).toNat % 4 ≠ 0 ∧ (8 : Nat) ≠ 32 ∧ (64 : Nat) ≠ 32 ∧
    (0x014 ≤ (0x014#9).toNat ∧ (0x014#9).toNat ≤ 0x01C) ∧ (0x014 ≤ (0x01C#9).toNat ∧ (0x01C#9).toNat ≤ 0x01C) ∧
    (0x050 ≤ (0x050#9).toNat ∧ (0x050#9).toNat ≤ 0x0FC) ∧ (0x050 ≤ (0x0FC#9).toNat ∧ (0x0FC#9).toNat ≤ 0x0FC) ∧
    (0x1B0 ≤ (0x1B0#9).toNat ∧ (0x1B0#9).toNat ≤ 0x1FC) ∧ (0x1B0 ≤ (0x1FC#9).toNat ∧ (0x1FC#9).toNat ≤ 0x1FC) ∧
    (at_ bound [.read 0x014#9 32]).port = .read 0x014#9 32 :: [] ∧
    (at_ bound [.write 0x020#9 8 0#32]).port = .write 0x020#9 8 0#32 :: [] := by decide

theorem hyp_ReadAfterWriteReturnsValue (v : Word) :
    (at_ bound [.write 0x020#9 32 v, .read 0x020#9 32]).port = .write 0x020#9 32 v :: .read 0x020#9 32 :: [] ∧
    (at_ bound [.write 0x04C#9 32 v, .read 0x04C#9 32]).port = .write 0x04C#9 32 v :: .read 0x04C#9 32 :: [] ∧
    (0x020#9).toNat % 4 = 0 ∧ 0x020 ≤ (0x020#9).toNat ∧ (0x020#9).toNat < 0x050 ∧
    (0x04C#9).toNat % 4 = 0 ∧ 0x020 ≤ (0x04C#9).toNat ∧ (0x04C#9).toNat < 0x050 := by
  refine ⟨rfl, rfl, ?_⟩
  decide

theorem hyp_WindowIsAtBase :
    Config.base + 0x200 ≤ Config.base + 0x200 ∧ (Config.base = 0 ∨ Config.base - 1 < Config.base) := by omega

/-- The clauses of BindFollowsOverrideAndTiers in order: bound; automatic; forced and present (1 and 4); forced and absent
(2 and 4); nonexistent (5 and 7); a bind that succeeds. -/
theorem hyp_BindFollowsOverrideAndTiers :
    bindingOf bound.bindings .diffusion = some .scalar ∧
    (bindingOf (twoTiers 0#3).bindings .confusion = none ∧ (twoTiers 0#3).overrideTier = 0#3) ∧
    ((twoTiers 1#3).overrideTier.toNat = (variantBits .scalar).toNat + 1 ∧
      (capTiers (twoTiers 1#3)).getLsbD (variantBits .scalar).toNat = true) ∧
    (let s := { State.resetWith 0b100#3 with overrideTier := 4#3 }
     bindingOf s.bindings .keySchedule = none ∧ s.overrideTier.toNat = (variantBits .tier3).toNat + 1 ∧
      (capTiers s).getLsbD (variantBits .tier3).toNat = true) ∧
    (let s := { State.resetWith 0b100#3 with overrideTier := 2#3 }
     s.overrideTier.toNat = (variantBits .tier1).toNat + 1 ∧ (capTiers s).getLsbD (variantBits .tier1).toNat = false) ∧
    ((twoTiers 4#3).overrideTier.toNat = (variantBits .tier3).toNat + 1 ∧
      (capTiers (twoTiers 4#3)).getLsbD (variantBits .tier3).toNat = false) ∧
    5 ≤ (twoTiers 5#3).overrideTier.toNat ∧ 5 ≤ (twoTiers 7#3).overrideTier.toNat ∧
    bindFamily .confusion (twoTiers 0#3) = some (setBinding .confusion .tier1 (twoTiers 0#3)) := by decide

theorem hyp_AutomaticSelectionNeverFails :
    (twoTiers 0#3).overrideTier = 0#3 ∧
    (let s := State.resetWith 0b000#3
     s.overrideTier = 0#3 ∧ capTiers s = 0b0001#4 ∧ bindingOf s.bindings .diffusion = none) := by decide

theorem hyp_ForcedTierBinding :
    ∀ t : BitVec 3, bindingOf (twoTiers t).bindings .confusion = none ∧ (twoTiers t).overrideTier = t ∧
      wellFormed .sub = true ∧ commandFamily .sub = some .confusion := by decide

theorem hyp_BindingLastsUntilReset :
    (∃ t, step (at_ bound [.write 0x00C#9 32 7#32]) = .next t) ∧
    (∀ rest, (at_ bound [.write 0x00C#9 32 7#32]).port ≠ .reset :: rest) ∧
    bindingOf (at_ bound [.write 0x00C#9 32 7#32]).bindings .confusion = some .scalar ∧
    commandFamily .shr = some .diffusion ∧ bindingOf bound.bindings .diffusion = some .scalar ∧
    ∃ t, exec .shr bound = .next t :=
  ⟨⟨_, rfl⟩, by simp [at_], rfl, rfl, rfl, ⟨_, rfl⟩⟩

/-- Every binding of `bound` is Scalar, which is always present. -/
theorem hyp_BoundVariantsStayPresent :
    BoundVariantsPresent (at_ bound [cmd 0x00000330#32]) ∧ ∃ t, step (at_ bound [cmd 0x00000330#32]) = .next t := by
  refine ⟨?_, ⟨_, rfl⟩⟩
  intro f v h
  cases f <;> cases h <;> decide

theorem hyp_SelectBindsNamedFamilies :
    (3#8).toNat ≤ 3 ∧ (∀ f, famNames 3#8 f = true → familyAvailable f (twoTiers 0#3) = true) ∧
    (0#8).toNat ≤ 3 ∧ (∀ f, famNames 0#8 f = true → familyAvailable f (twoTiers 2#3) = true) ∧
    famNames 0#8 .diffusion = false := by
  refine ⟨by decide, ?_, by decide, ?_, by decide⟩ <;> intro f _ <;> cases f <;> decide

theorem hyp_SelectOfUnavailableFamilyFails :
    (3#8).toNat ≤ 3 ∧ famNames 3#8 .keySchedule = true ∧ familyAvailable .keySchedule nothingAvailable = false := by
  decide

theorem hyp_UnavailableFamilyRunsNothing :
    wellFormed .mix = true ∧ commandFamily .mix = some .diffusion ∧ familyAvailable .diffusion nothingAvailable = false ∧
    familyAvailable .diffusion (twoTiers 4#3) = false := by decide

theorem hyp_IllegalOperandFieldsSetErr :
    wellFormed (.ark 11#8) = false ∧ wellFormed (.ark 254#8) = false ∧ wellFormed (.select 4#8) = false := by decide

/-- The confusion statements: available because bound, because automatic, and because the forced tier is present. -/
theorem hyp_confusion_available :
    familyAvailable .confusion (withState 0#128) = true ∧ familyAvailable .confusion (State.resetWith 0b000#3) = true ∧
    familyAvailable .confusion (twoTiers 2#3) = true := by decide

theorem hyp_ArkTwiceRestoresState :
    wellFormed (.ark 0xFF#8) = true ∧ wellFormed (.ark 10#8) = true ∧ familyAvailable .confusion bound = true := by decide

/-- Two states that differ in STATE's other bytes and agree in byte 0. -/
theorem hyp_ConfusionActsBytewise :
    let s := withState 0x000102030405060708090a0b0c0d0e0f#128
    let s' := withState 0x00ff#128
    (commandFamily (.ark 0xFF#8) = some .confusion ∧ wellFormed (.ark 0xFF#8) = true) ∧
    (commandFamily (.ark 10#8) = some .confusion ∧ wellFormed (.ark 10#8) = true) ∧
    familyAvailable .confusion s = true ∧ familyAvailable .confusion s' = true ∧
    (∃ t, exec (.ark 0xFF#8) s = .next t) ∧ (∃ t, exec (.ark 0xFF#8) s' = .next t) ∧
    (∃ t, exec (.ark 10#8) s = .next t) ∧ (∃ t, exec (.ark 10#8) s' = .next t) ∧
    s.stateReg.bytes.byte 0 = s'.stateReg.bytes.byte 0 ∧ s.rkeyReg.bytes.byte 0 = s'.rkeyReg.bytes.byte 0 ∧
    s.ekReg.byte 160 = s'.ekReg.byte 160 :=
  ⟨by decide, by decide, by decide, by decide, ⟨_, rfl⟩, ⟨_, rfl⟩, ⟨_, rfl⟩, ⟨_, rfl⟩, by decide, by decide, by decide⟩

theorem hyp_diffusion_available :
    familyAvailable .diffusion (withState 0#128) = true ∧ familyAvailable .diffusion (State.resetWith 0b000#3) = true := by
  decide

/-- Two states that agree in row 0 and differ in rows 1 to 3; and two that agree in column 0 and differ in the others. -/
theorem hyp_DiffusionStaysInRowsAndColumns :
    let s := withState 0x00112233001122330011223300112233#128
    let r := withState 0x00000000000000000000000000000000#128
    let c := withState 0x00112233000000000000000000000000#128
    familyAvailable .diffusion s = true ∧ familyAvailable .diffusion r = true ∧ familyAvailable .diffusion c = true ∧
    (∃ t, exec .shr s = .next t) ∧ (∃ t, exec .shr r = .next t) ∧
    (∀ k, matrixAt s.stateReg.bytes 0 k = matrixAt r.stateReg.bytes 0 k) ∧
    (∃ t, exec .mix s = .next t) ∧ (∃ t, exec .mix c = .next t) ∧
    (∀ k, matrixAt s.stateReg.bytes k 0 = matrixAt c.stateReg.bytes k 0) :=
  ⟨by decide, by decide, by decide, ⟨_, rfl⟩, ⟨_, rfl⟩, by decide, ⟨_, rfl⟩, ⟨_, rfl⟩, by decide⟩

theorem hyp_ExpandWritesTheSchedule :
    familyAvailable .keySchedule (withKey 0#128) = true ∧ familyAvailable .keySchedule (twoTiers 0#3) = true := by decide

theorem hyp_ExpandSizeErrors :
    familyAvailable .keySchedule bound = true ∧ (15#8 ≠ 16#8 ∧ 17#8 ≠ 16#8 ∧ 0#8 ≠ 16#8) ∧
    (175#8 ≠ 176#8 ∧ 177#8 ≠ 176#8 ∧ 255#8 ≠ 176#8) := by decide

/-- Both clauses: an EXPAND that fails and one that succeeds. -/
theorem hyp_ExpandNeverWritesPartially :
    (∃ t, exec (.expand 15#8 176#8) bound = .next t ∧ t.err ≠ .ok) ∧
    (∃ t, exec (.expand 16#8 176#8) bound = .next t ∧ t.err = .ok) :=
  ⟨⟨_, rfl, by decide⟩, ⟨_, rfl, rfl⟩⟩

/-- EK holding the schedule of the zero key, which a step keeps. -/
theorem hyp_EkStaysAWholeSchedule :
    let s := at_ { bound with ekv := true, ekReg := expandKey (hexBlock 0#128) } [cmd 0x00000330#32]
    EkHoldsSchedule s ∧ ∃ t, step s = .next t := by
  refine ⟨fun _ => ⟨hexBlock 0#128, ?_, ?_⟩, ⟨_, rfl⟩⟩
  · decide +kernel
  · unfold at_
    decide +kernel

/-- The four clauses of ErrorPriority. -/
theorem hyp_ErrorPriority :
    (∃ t, execute 0x01B00F21#32 bound = .next t) ∧ (∀ i, decode 0x01B00F21#32 ≠ .ok i) ∧
    (∃ t, execute 0x00B00F21#32 nothingAvailable = .next t) ∧ decode 0x00B00F21#32 = .ok (.expand 15#8 176#8) ∧
    commandFamily (.expand 15#8 176#8) = some .keySchedule ∧ familyAvailable .keySchedule nothingAvailable = false ∧
    (∃ t, execute 0x00B00F21#32 bound = .next t) ∧ familyAvailable .keySchedule bound = true ∧
    (∃ t, execute 0x00000001#32 bound = .next t) ∧ decode 0x00000001#32 = .ok .sub ∧
    commandFamily .sub = some .confusion ∧ familyAvailable .confusion bound = true ∧
    ∀ klen blen, Instr.sub ≠ .expand klen blen := by
  have h : decode 0x01B00F21#32 = .error .reservedBitsSet := by decide
  refine ⟨⟨_, rfl⟩, ?_, ⟨_, rfl⟩, by decide, rfl, by decide, ⟨_, rfl⟩, by decide, ⟨_, rfl⟩, by decide, rfl, by decide, ?_⟩
  · intro i hi
    cases h.symm.trans hi
  · intro _ _ hi
    cases hi

theorem hyp_FailedCommandOnlyBinds : ∃ t, exec .sub nothingAvailable = .next t ∧ t.err ≠ .ok := ⟨_, rfl, by decide⟩

/-- A command that is no EXPAND, and one that does not write STATE. -/
theorem hyp_CommandsWriteOnlyTheirRegisters :
    (∃ t, exec .sub bound = .next t) ∧ (∀ klen blen, Instr.sub ≠ .expand klen blen) ∧
    (∃ t, exec (.select 3#8) bound = .next t) ∧ commandFamily (.select 3#8) = none ∧
    (∃ t, exec (.expand 16#8 176#8) bound = .next t) ∧ commandFamily (.expand 16#8 176#8) = some .keySchedule :=
  ⟨⟨_, rfl⟩, (by intro _ _ h; cases h), ⟨_, rfl⟩, rfl, ⟨_, rfl⟩, rfl⟩

theorem hyp_OnlyCommandsWriteFlags :
    let s := at_ bound [.write 0x00C#9 32 5#32]
    (∃ t, step s = .next t) ∧ (∀ rest, s.port ≠ .reset :: rest) ∧ (∀ w rest, s.port ≠ .write 0x000#9 32 w :: rest) :=
  ⟨⟨_, rfl⟩, by simp [at_], by simp [at_]⟩

/-- Both clauses: EKV set by an EXPAND, and cleared by reset. -/
theorem hyp_EkvSetByExpandClearedByReset :
    (∃ t, step (at_ bound [cmd 0x00B01021#32]) = .next t ∧ bound.ekv = false ∧ t.ekv = true) ∧
    (∃ t, step (at_ { bound with ekv := true } [.reset]) = .next t ∧ t.ekv = false) :=
  ⟨⟨_, rfl, rfl, rfl⟩, ⟨_, rfl, rfl⟩⟩

theorem hyp_CapIsConstant : ∃ t, step selecting = .next t := ⟨_, rfl⟩

theorem hyp_RecordedFaultIsNeverCleared :
    let s := at_ { bound with modelFault := some .readUnwritten } [.reset]
    (∃ t, step s = .next t) ∧ s.modelFault = some .readUnwritten := ⟨⟨_, rfl⟩, rfl⟩

/-- The same block with and without vector tiers, one SELECT waiting; and a write to OVERRIDE of a tier both have. -/
theorem hyp_VariantsAreObservablyEquivalent :
    let s := at_ (State.resetWith 0b111#3) [.write 0x00C#9 32 1#32]
    let s' := at_ (State.resetWith 0b000#3) [.write 0x00C#9 32 1#32]
    SameUpToVariants s s' ∧
    (∀ v rest, s.port = .write 0x00C#9 32 v :: rest →
      tierSelectable (capTiers s) (v.extractLsb' 0 3) = tierSelectable (capTiers s') (v.extractLsb' 0 3)) ∧
    ∃ t, step s = .next t := by
  refine ⟨⟨rfl, rfl, rfl, rfl, rfl, rfl, rfl, rfl, rfl, fun _ => rfl, by decide⟩, ?_, ⟨_, rfl⟩⟩
  intro v rest h
  cases h
  decide

/-- Two states whose unwritten STATE differs, and a step that does not read it. -/
theorem hyp_UnwrittenContentsNeverShow :
    let s := selecting
    let s' := { selecting with stateReg := { selecting.stateReg with bytes := hexBlock 0xff#128 } }
    AgreeUpToUnwritten s s' ∧ ∃ t, step s = .next t ∧ Clean t := by
  refine ⟨⟨rfl, rfl, rfl, rfl, rfl, rfl, rfl, rfl, ⟨rfl, ?_⟩, ⟨rfl, fun _ _ => rfl⟩, ⟨rfl, fun _ _ => rfl⟩, fun _ => rfl⟩,
    ⟨_, rfl, by decide⟩⟩
  intro j h
  have : ∀ j, selecting.stateReg.written.get j = false := by decide
  rw [this j] at h
  cases h

end Sys2Proof.Tests
end

/-!
The commands that replace STATE by a function of STATE (SUB, INVSUB, SHR, INVSHR, MIX, INVMIX), and the platform addresses of
the window. A command's next state, with its frame and the record of its read, is said once in `performOnState_spec`; what is
left of each statement is which byte of the result comes from which bytes of STATE.
-/

namespace Sys2Proof.Machine

/-! ### The frame of a command that writes STATE -/

/-- `BindsOnly` looks at the bindings of the later state alone. -/
theorem BindsOnly.congr {f : Family} {s t u : State} (h : BindsOnly f s t) (hb : u.bindings = t.bindings) :
    BindsOnly f s u := by
  unfold BindsOnly BoundIn at h ⊢
  rwa [hb]

/-- What no command writes is unchanged by `Bind` (R102). -/
theorem bindFamily_keepsHostRegisters {f : Family} {s s1 : State} (h : bindFamily f s = some s1) :
    KeepsHostRegisters s s1 := by
  rw [(bindFamily_extends h).1]
  exact ⟨rfl, rfl, rfl, rfl, rfl, rfl⟩

/-- A command that binds its family, reads its operands, writes STATE and completes has the frame of a STATE command (R105). -/
theorem writeStateReg_frame {f : Family} {s s1 : State} (b : Block) (w : Bool) (h : bindFamily f s = some s1) :
    StateCommandFrame f s (completeCommand (writeStateReg b (recordUnwritten w s1))) := by
  have hs1 := (bindFamily_extends h).1
  have hekv : s1.ekv = s.ekv := by rw [hs1]
  have hek : s1.ekReg = s.ekReg := by rw [hs1]
  have hbinds := (bindFamily_bindsOnly h).congr
    (u := completeCommand (writeStateReg b (recordUnwritten w s1))) (by simp)
  have hhost := bindFamily_keepsHostRegisters h
  exact ⟨rfl, rfl, by simp [hekv], by simp [hek], hbinds, by simpa [KeepsHostRegisters] using hhost⟩

/-- What such a command leaves in the record of ReadUnwritten (R219). -/
theorem writeStateReg_recordsRead {f : Family} {s s1 : State} (b : Block) (w : Bool) (h : bindFamily f s = some s1) :
    RecordsRead w s (completeCommand (writeStateReg b (recordUnwritten w s1))) := by
  have hfault : s1.modelFault = s.modelFault := by rw [(bindFamily_extends h).1]
  simp [RecordsRead, hfault]

/-- A command that replaces STATE by `g` of STATE, its family available: its result and its frame (R15, R105). -/
theorem performOnState_spec {f : Family} {s : State} (g : Block → Block) (h : familyAvailable f s = true) :
    ∃ t, familyCommand f (performOnState g) s = .next t ∧ StateCommandFrame f s t ∧
      RecordsRead (isWritten s.stateReg) s t ∧ t.stateReg.bytes = g s.stateReg.bytes := by
  obtain ⟨s1, hbind, hnext⟩ := performOnState_next (g := g) h
  exact ⟨_, hnext, writeStateReg_frame _ _ hbind, writeStateReg_recordsRead _ _ hbind, rfl⟩

/-! ### Bytes of the results -/

/-- R127: no byte moves. -/
@[simp] theorem byte_mapBytes (f : Byte → Byte) (b : Block) (i : Fin 16) :
    Block.byte (mapBytes f b) i = f (Block.byte b i) := by
  simp [Block.byte, mapBytes]

/-- Row `r`, column `c` is element `r` of column `c` (R14). -/
theorem matrixAt_eq_get (b : Block) (r c : Fin 4) : matrixAt b r c = (Quad.get b c).get r := by
  rw [← Block.byte_eq b r c (by omega)]
  simp only [matrixAt, Nat.add_comm]

/-- R143. -/
theorem matrixAt_shiftRows (b : Block) (r c : Fin 4) : matrixAt (shiftRows b) r c = matrixAt b r (c + r) := by
  simp [matrixAt_eq_get, shiftRows]

/-- R144. -/
theorem matrixAt_invShiftRows (b : Block) (r c : Fin 4) : matrixAt (invShiftRows b) r c = matrixAt b r (c - r) := by
  simp [matrixAt_eq_get, invShiftRows]

/-- R145: each column on its own. -/
theorem matrixAt_mixColumns (b : Block) (r c : Fin 4) :
    matrixAt (mixColumns b) r c = (mixColumn (Quad.get b c)).get r := by
  simp [matrixAt_eq_get, mixColumns]

/-- R146: each column on its own. -/
theorem matrixAt_invMixColumns (b : Block) (r c : Fin 4) :
    matrixAt (invMixColumns b) r c = (invMixColumn (Quad.get b c)).get r := by
  simp [matrixAt_eq_get, invMixColumns]

/-- A difference of columns, as a number (R144). -/
theorem fin4_sub_eq (c r : Fin 4) : c - r = ⟨(c.val + 4 - r.val) % 4, by omega⟩ :=
  Fin.ext (by simp only [Fin.val_sub]; omega)

/-! ### The confusion unit -/

/-- Settles O25: SUB is `performOnState` of SBOX on every byte. -/
theorem subSubstitutesEveryByte : Obligations.SubSubstitutesEveryByte := by
  intro s h
  obtain ⟨t, hnext, hframe, hread, hbytes⟩ := performOnState_spec (mapBytes sbox) h
  exact ⟨t, hnext, hframe, hread, fun i => by rw [hbytes, byte_mapBytes]⟩

/-- Settles O26: INVSUB is `performOnState` of INV_SBOX on every byte. -/
theorem invsubSubstitutesEveryByte : Obligations.InvsubSubstitutesEveryByte := by
  intro s h
  obtain ⟨t, hnext, hframe, hread, hbytes⟩ := performOnState_spec (mapBytes invSbox) h
  exact ⟨t, hnext, hframe, hread, fun i => by rw [hbytes, byte_mapBytes]⟩

/-! ### The diffusion unit -/

/-- Settles O33: addition on `Fin 4` is the column index modulo 4. -/
theorem shrRotatesRowsLeft : Obligations.ShrRotatesRowsLeft := by
  intro s h
  obtain ⟨t, hnext, hframe, hread, hbytes⟩ := performOnState_spec shiftRows h
  refine ⟨t, hnext, hframe, hread, fun r c => ?_⟩
  rw [hbytes, matrixAt_shiftRows, Fin.add_def]

/-- Settles O34: subtraction on `Fin 4` is the column index modulo 4. -/
theorem invshrRotatesRowsRight : Obligations.InvshrRotatesRowsRight := by
  intro s h
  obtain ⟨t, hnext, hframe, hread, hbytes⟩ := performOnState_spec invShiftRows h
  refine ⟨t, hnext, hframe, hread, fun r c => ?_⟩
  rw [hbytes, matrixAt_invShiftRows, fin4_sub_eq]

/-- Settles O35: each column of the result is `mixColumn` of that column, whose four entries are the four equations. -/
theorem mixMultipliesColumns : Obligations.MixMultipliesColumns := by
  intro s h
  obtain ⟨t, hnext, hframe, hread, hbytes⟩ := performOnState_spec mixColumns h
  refine ⟨t, hnext, hframe, hread, fun c => ?_⟩
  simp only [hbytes, matrixAt_mixColumns, matrixAt_eq_get s.stateReg.bytes]
  exact ⟨rfl, rfl, rfl, rfl⟩

/-- Settles O36: each column of the result is `invMixColumn` of that column, whose four entries are the four equations. -/
theorem invmixMultipliesColumns : Obligations.InvmixMultipliesColumns := by
  intro s h
  obtain ⟨t, hnext, hframe, hread, hbytes⟩ := performOnState_spec invMixColumns h
  refine ⟨t, hnext, hframe, hread, fun c => ?_⟩
  simp only [hbytes, matrixAt_invMixColumns, matrixAt_eq_get s.stateReg.bytes]
  exact ⟨rfl, rfl, rfl, rfl⟩

/-! ### The platform addresses of the window -/

/-- R50: the address of offset `off`. -/
@[simp] theorem windowOffset_base_add (off : BitVec 9) : windowOffset (Config.base + off.toNat) = some off := by
  have hin : Config.base ≤ Config.base + off.toNat ∧ Config.base + off.toNat < Config.base + 0x200 := by omega
  rw [windowOffset, if_pos hin, Nat.add_sub_cancel_left, BitVec.ofNat_toNat, BitVec.setWidth_eq]

/-- R50: an address below BASE or above the window. -/
theorem windowOffset_outside {addr : Nat} (h : addr < Config.base ∨ Config.base + 0x200 ≤ addr) :
    windowOffset addr = none :=
  if_neg (by omega)

/-- Settles O14: `MemRead` and `MemWrite` reach the port at `windowOffset` of their address. -/
theorem windowIsAtBase : Obligations.WindowIsAtBase := by
  refine ⟨windowOffset_base_add, fun _ => windowOffset_outside, fun off => ?_, fun off v => ?_⟩
  · simp [memRead]
  · simp [memWrite]

end Sys2Proof.Machine

/-!
The state and its registers (10_state.md): what a step can do to the control state and to EK, the host's writes, reset, and
the two relations on pairs of states.
-/

namespace Sys2Proof.Machine

/-! ### One step by what stands at the port -/

theorem step_idle {s : State} (h : s.port = []) : step s = .next (takeAccess [] s) := by
  simp only [step, serviceNext, h]

theorem step_service {s : State} {e : PortEvent} {rest : List PortEvent} (h : s.port = e :: rest) :
    step s = service e (takeAccess rest s) := by
  simp only [step, serviceNext, h]

/-- A 32-bit write to a mapped register, the access taken from the port and acknowledged (R53). -/
theorem step_write {s : State} {off : BitVec 9} {v : Word} {rest : List PortEvent} {r : WindowReg}
    (h : s.port = .write off 32 v :: rest) (hr : windowReg off = some r) :
    step s = windowWrite r v (respond .writeDone (takeAccess rest s)) := by
  simp only [step_service h, service, regWrite, acceptedReg_32, hr]

theorem execute_of_decode {w : Word} {i : Instr} (h : decode w = .ok i) (s : State) : execute w s = exec i s := by
  simp only [execute, h]

/-! ### EK and the schedule -/

/-- The recurrence of `IsScheduleOf` for one word, from the window's (R162). -/
theorem xorColumn_scheduleTemp (i : Nat) (q p : Column) :
    xorColumn q (scheduleTemp i p) =
      if i % 4 = 0 then
        ⟨q.e0 ^^^ (sbox p.e1 ^^^ rcon (i / 4 - 1)), q.e1 ^^^ sbox p.e2, q.e2 ^^^ sbox p.e3, q.e3 ^^^ sbox p.e0⟩
      else ⟨q.e0 ^^^ p.e0, q.e1 ^^^ p.e1, q.e2 ^^^ p.e2, q.e3 ^^^ p.e3⟩ := by
  unfold scheduleTemp
  split <;> rfl

/-- `expandKey` gives the schedule of its key (R162). -/
theorem isScheduleOf_expandKey (key : Block) : IsScheduleOf key (expandKey key) := by
  refine ⟨fun i => ?_, fun i hi h4 => ?_⟩
  · have hword := scheduleWindow_get key 0 i
    rw [Nat.zero_add] at hword
    rw [expandKey_word, ← hword]
    rfl
  · obtain ⟨n, rfl⟩ := Nat.exists_eq_add_of_le' h4
    simp only [expandKey_word, scheduleWindow_succ4, xorColumn_scheduleTemp, Nat.add_sub_cancel,
      show n + 4 - 1 = n + 3 by omega]

/-! ### What commands and other accesses do to the control state and EK -/

/-- Everything a command can do to EK and EKV: it keeps both, or it is the EXPAND that completes and writes both (R31,
R162). -/
theorem exec_ek {i : Instr} {s t : State} (h : exec i s = .next t) :
    (t.ekReg = s.ekReg ∧ t.ekv = s.ekv) ∨
    (i = .expand 16#8 176#8 ∧ t.err = .ok ∧ t.ekv = true ∧ t.ekReg = expandKey s.keyReg.bytes) := by
  obtain ⟨b, -, ⟨e, -, rfl⟩ | ⟨-, rfl⟩ | ⟨-, g, w, rfl, -⟩ | ⟨rfl, rfl⟩⟩ := exec_cases h
  · exact .inl ⟨rfl, rfl⟩
  · exact .inl ⟨rfl, rfl⟩
  · exact .inl ⟨by simp, by simp⟩
  · exact .inr ⟨rfl, rfl, rfl, rfl⟩

/-- No command writes CAP, OVERRIDE, RKEY or KEY, or touches the port (R24, R25, R28, R29). -/
theorem exec_keepsHostRegisters {i : Instr} {s t : State} (h : exec i s = .next t) : KeepsHostRegisters s t := by
  obtain ⟨b, -, ⟨e, -, rfl⟩ | ⟨-, rfl⟩ | ⟨-, g, w, rfl, -⟩ | ⟨-, rfl⟩⟩ := exec_cases h
  · exact ⟨rfl, rfl, rfl, rfl, rfl, rfl⟩
  · exact ⟨rfl, rfl, rfl, rfl, rfl, rfl⟩
  · simp [KeepsHostRegisters]
  · simp [KeepsHostRegisters]

/-- Only confusion and diffusion commands write STATE (R27). -/
theorem exec_stateReg {i : Instr} {s t : State} (h : exec i s = .next t)
    (hi : commandFamily i = none ∨ commandFamily i = some .keySchedule) : t.stateReg = s.stateReg := by
  obtain ⟨b, -, ⟨e, -, rfl⟩ | ⟨-, rfl⟩ | ⟨hfam, -⟩ | ⟨-, rfl⟩⟩ := exec_cases h
  · rfl
  · rfl
  · rcases hi with hi | hi <;> simp [hi] at hfam
  · simp

/-- The state only commands and reset may change: ERR, EKV, BIND, EK, and TIERS, which not even they do (R24, R34). -/
structure KeepsControl (s t : State) : Prop where
  err : t.err = s.err
  ekv : t.ekv = s.ekv
  bindings : t.bindings = s.bindings
  ekReg : t.ekReg = s.ekReg
  vecTiers : t.vecTiers = s.vecTiers

theorem HostWrite.keepsControl {s t : State} (h : HostWrite s t) : KeepsControl s t := by
  cases h with
  | ignored | override | stateWord | rkeyWord | keyWord => exact ⟨rfl, rfl, rfl, rfl, rfl⟩

theorem regRead_keepsControl (off : BitVec 9) (bits : Nat) (s : State) : KeepsControl s (regRead off bits s) := by
  unfold regRead
  split
  · exact ⟨rfl, rfl, rfl, rfl, rfl⟩
  · exact ⟨by simp, by simp, by simp, by simp, by simp⟩

/-- A step is a reset, a word written to CMD, or leaves the control state alone (R34, R201). -/
theorem step_control {s t : State} (h : step s = .next t) :
    (∃ rest, s.port = .reset :: rest ∧ t = resetEvent (takeAccess rest s)) ∨
    (∃ w rest, s.port = .write 0x000#9 32 w :: rest ∧ execute w (respond .writeDone (takeAccess rest s)) = .next t) ∨
    KeepsControl s t := by
  cases step_cases h with
  | idle => exact .inr (.inr ⟨rfl, rfl, rfl, rfl, rfl⟩)
  | read off bits rest hp =>
    obtain ⟨h1, h2, h3, h4, h5⟩ := regRead_keepsControl off bits (takeAccess rest s)
    exact .inr (.inr ⟨h1, h2, h3, h4, h5⟩)
  | reset rest hp => exact .inl ⟨rest, hp, rfl⟩
  | rejected => exact .inr (.inr ⟨rfl, rfl, rfl, rfl, rfl⟩)
  | hostWrite off v r rest t hp hreg hcmd hw =>
    obtain ⟨h1, h2, h3, h4, h5⟩ := (windowWrite_cases hcmd hw).keepsControl
    exact .inr (.inr ⟨h1, h2, h3, h4, h5⟩)
  | command w rest t hp hw => exact .inr (.inl ⟨w, rest, hp, hw⟩)

/-- What a word executed does to EK, EKV and TIERS (R24, R31, R203). -/
theorem execute_ek {w : Word} {s t : State} (h : execute w s = .next t) :
    (t.ekReg = s.ekReg ∧ t.ekv = s.ekv) ∨
    (decode w = .ok (.expand 16#8 176#8) ∧ t.err = .ok ∧ t.ekv = true ∧ t.ekReg = expandKey s.keyReg.bytes) := by
  obtain ⟨r, -, rfl⟩ | ⟨i, hi, hexec⟩ := execute_cases h
  · exact .inl ⟨rfl, rfl⟩
  · obtain hkeep | ⟨rfl, hwrite⟩ := exec_ek hexec
    · exact .inl hkeep
    · exact .inr ⟨hi, hwrite⟩

theorem execute_vecTiers {w : Word} {s t : State} (h : execute w s = .next t) : t.vecTiers = s.vecTiers := by
  obtain ⟨r, -, rfl⟩ | ⟨i, -, hexec⟩ := execute_cases h
  · rfl
  · exact (exec_keepsHostRegisters hexec).1

/-! ### The statements about commands and steps -/

/-- Settles O46: EK changes only with an EXPAND, which writes a whole schedule, and with reset, which clears EKV. -/
theorem ekStaysAWholeSchedule : Obligations.EkStaysAWholeSchedule := by
  intro s t hinv hstep hekv
  obtain ⟨rest, -, rfl⟩ | ⟨w, rest, -, hw⟩ | hkeep := step_control hstep
  · cases hekv
  · obtain ⟨hek, hv⟩ | ⟨-, -, -, hek⟩ := execute_ek hw
    · rw [hek]
      exact hinv (hv.symm.trans hekv)
    · rw [hek]
      exact ⟨_, isScheduleOf_expandKey _⟩
  · rw [hkeep.ekReg]
    exact hinv (hkeep.ekv.symm.trans hekv)

/-- Settles O42: with its sizes right, EXPAND's `perform` cannot fail. -/
theorem expandWritesTheSchedule : Obligations.ExpandWritesTheSchedule := by
  intro s h
  obtain ⟨s1, hbind, hnext⟩ := familyCommand_of_available (performExpand 16#8 176#8) h
  have hs1 := (bindFamily_extends hbind).1
  have hkey : s1.keyReg = s.keyReg := by rw [hs1]
  have hstate : s1.stateReg = s.stateReg := by rw [hs1]
  have hfault : s1.modelFault = s.modelFault := by rw [hs1]
  refine ⟨completeCommand (writeExpandedKey (expandKey s.keyReg.bytes) (recordUnwritten (isWritten s.keyReg) s1)),
    by rw [exec_expand, hnext, ← hkey]; rfl, rfl, rfl, isScheduleOf_expandKey _, by simp [RecordsRead, hfault],
    by simp [hstate], (bindFamily_bindsOnly hbind).congr (by simp), ?_⟩
  simpa [KeepsHostRegisters] using bindFamily_keepsHostRegisters hbind

/-- Settles O50, clause by clause from what a command can do. -/
theorem commandsWriteOnlyTheirRegisters : Obligations.CommandsWriteOnlyTheirRegisters := by
  intro i s t h
  refine ⟨exec_keepsHostRegisters h, fun hi => ?_, exec_stateReg h⟩
  obtain hkeep | ⟨hexp, -⟩ := exec_ek h
  · exact hkeep
  · exact absurd hexp (hi _ _)

/-- Settles O51: the step is neither a reset nor a command. -/
theorem onlyCommandsWriteFlags : Obligations.OnlyCommandsWriteFlags := by
  intro s t hstep hreset hcmd
  obtain ⟨rest, hp, -⟩ | ⟨w, rest, hp, -⟩ | hkeep := step_control hstep
  · exact absurd hp (hreset rest)
  · exact absurd hp (hcmd w rest)
  · exact ⟨hkeep.err, hkeep.ekv, hkeep.bindings⟩

/-- Settles O52: of the steps only a reset clears EKV, and only a completed EXPAND sets it. -/
theorem ekvSetByExpandClearedByReset : Obligations.EkvSetByExpandClearedByReset := by
  intro s t hstep
  obtain ⟨rest, hp, rfl⟩ | ⟨w, rest, hp, hw⟩ | hkeep := step_control hstep
  · exact ⟨fun _ ht => (Bool.false_ne_true ht).elim, fun _ _ => ⟨rest, hp⟩⟩
  · obtain ⟨-, hv⟩ | ⟨hdec, herr, hset, -⟩ := execute_ek hw
    · rw [respond_ekv, takeAccess_ekv] at hv
      refine ⟨fun hs ht => ?_, fun hs ht => ?_⟩ <;> simp [hs, ht] at hv
    · exact ⟨fun _ _ => ⟨w, rest, hp, hdec, herr⟩, fun _ ht => by simp [hset] at ht⟩
  · have hv := hkeep.ekv
    refine ⟨fun hs ht => ?_, fun hs ht => ?_⟩ <;> simp [hs, ht] at hv

/-- No step changes TIERS (R24). -/
theorem step_vecTiers {s t : State} (h : step s = .next t) : t.vecTiers = s.vecTiers := by
  obtain ⟨rest, -, rfl⟩ | ⟨w, rest, -, hw⟩ | hkeep := step_control h
  · rfl
  · exact (execute_vecTiers hw).trans (by simp)
  · exact hkeep.vecTiers

/-- Settles O53: CAP is TIERS beside its hard-wired bit 0. -/
theorem capIsConstant : Obligations.CapIsConstant := by
  intro s t h
  exact ⟨by rw [capTiers, capTiers, step_vecTiers h], capTiers_bit0 t⟩

/-- Settles O6: a legal word at CMD is `exec` of its command on the acknowledged access. -/
theorem stepRunsTheDecodedCommand : Obligations.StepRunsTheDecodedCommand := by
  intro s w rest i hp hdec
  rw [step_command hp, execute_of_decode hdec]
  rfl

/-! ### Reset -/

/-- Settles O8: each register by its reset value, for the constant TIERS. -/
theorem resetLeavesControlState : Obligations.ResetLeavesControlState := by
  refine ⟨rfl, rfl, rfl, rfl, rfl, fun f => ?_, rfl, rfl, fun j => ?_, rfl⟩
  · cases f <;> rfl
  · exact ⟨Quad.get_replicate false j, Quad.get_replicate false j, Quad.get_replicate false j⟩

/-- No family is bound right after reset (R36). -/
@[simp] theorem bindingOf_resetWith (tiers : BitVec 3) (f : Family) :
    bindingOf (State.resetWith tiers).bindings f = none := by
  cases f <;> rfl

/-- Settles O9: the step is `resetEvent`, which starts from `State.resetWith`. -/
theorem resetEventReturnsToReset : Obligations.ResetEventReturnsToReset := by
  intro s rest hp
  refine ⟨resetEvent (takeAccess rest s), step_service hp, rfl, rfl, rfl, bindingOf_resetWith s.vecTiers, rfl,
    fun j => ?_, rfl, rfl⟩
  exact ⟨Quad.get_replicate false j, Quad.get_replicate false j, Quad.get_replicate false j⟩

/-- Settles O20: nothing is bound. -/
theorem resetBindsNoAbsentVariant : Obligations.ResetBindsNoAbsentVariant := by
  have hreset : ∀ tiers, BoundVariantsPresent (State.resetWith tiers) := fun tiers f v hb => by simp at hb
  exact ⟨hreset Config.vecTiers, hreset⟩

/-- Settles O47: EKV is 0. -/
theorem resetMeetsTheEkInvariant : Obligations.ResetMeetsTheEkInvariant :=
  ⟨fun hekv => (Bool.false_ne_true hekv).elim, fun _ hekv => (Bool.false_ne_true hekv).elim⟩

/-! ### The host's writes -/

@[simp] theorem setRegWord_written (r : DataReg) (j : Fin 4) (v : Word) :
    (setRegWord r j v).written = r.written.set j true := rfl

/-- The written word holds the four bytes of the value (R53, R55). -/
theorem setRegWord_byte (r : DataReg) (j : Fin 4) (v : Word) (k : Fin 4) :
    Block.byte (setRegWord r j v).bytes ⟨4 * j.val + k.val, by omega⟩ = v.extractLsb' (8 * k.val) 8 := by
  rw [Block.byte_eq, ← unpackWord_get, setRegWord, Quad.get_set_self]

/-- The other words keep their bytes. -/
theorem setRegWord_get_ne (r : DataReg) {j i : Fin 4} (v : Word) (h : i ≠ j) :
    (setRegWord r j v).bytes.get i = r.bytes.get i :=
  Quad.get_set_ne r.bytes (unpackWord v) h

/-- Settles O11: each offset's register, and what `windowWrite` does with it. -/
theorem writeEffectByRegister : Obligations.WriteEffectByRegister := by
  intro s off v rest hp
  refine ⟨?cmd, ?readOnly, ?ek, ?override, ?state, ?rkey, ?key⟩
  case cmd =>
    rintro rfl
    exact step_command hp
  case readOnly =>
    rintro (rfl | rfl | rfl)
    · exact step_write (r := .status) hp (by decide)
    · exact step_write (r := .cap) hp (by decide)
    · exact step_write (r := .bind) hp (by decide)
  case ek => exact fun i hoff => step_write hp (windowReg_ekWord i hoff)
  case override =>
    rintro rfl
    exact step_write (r := .override) hp (by decide)
  case state =>
    exact fun j hoff => ⟨setRegWord s.stateReg j v, step_write hp (windowReg_stateWord j hoff), rfl,
      setRegWord_byte _ j v, fun _ => setRegWord_get_ne _ v⟩
  case rkey =>
    exact fun j hoff => ⟨setRegWord s.rkeyReg j v, step_write hp (windowReg_rkeyWord j hoff), rfl,
      setRegWord_byte _ j v, fun _ => setRegWord_get_ne _ v⟩
  case key =>
    exact fun j hoff => ⟨setRegWord s.keyReg j v, step_write hp (windowReg_keyWord j hoff), rfl,
      setRegWord_byte _ j v, fun _ => setRegWord_get_ne _ v⟩

/-! ### OVERRIDE and `Bind` -/

/-- `Bind(f)` of an unbound family writes the probe's choice, if it has one (R102). -/
theorem bindFamily_of_unbound {f : Family} {s : State} (h : bindingOf s.bindings f = none) :
    bindFamily f s = (chooseVariant (capTiers s) s.overrideTier).map fun v => setBinding f v s := by
  simp only [bindFamily, h]
  cases chooseVariant (capTiers s) s.overrideTier <;> rfl

/-- An unbound family that binds is bound to the probe's choice (R102). -/
theorem bindFamily_of_chosen {f : Family} {s : State} {v : Variant} (h : bindingOf s.bindings f = none)
    (hv : chooseVariant (capTiers s) s.overrideTier = some v) :
    ∃ t, bindFamily f s = some t ∧ bindingOf t.bindings f = some v :=
  ⟨setBinding f v s, by rw [bindFamily_of_unbound h, hv, Option.map_some], by simp⟩

/-- An unbound family binds exactly when OVERRIDE lets it (R102). -/
theorem exists_bindFamily_iff {f : Family} {s : State} (h : bindingOf s.bindings f = none) :
    (∃ t, bindFamily f s = some t) ↔ tierSelectable (capTiers s) s.overrideTier = true := by
  rw [← Option.isSome_iff_exists, bindFamily_isSome, familyAvailable, h, Option.isSome_none, Bool.false_or]

/-- Settles O16: OVERRIDE.TIER = 0 makes every family available; the automatic choice for TIERS = 0b0001 is computed. -/
theorem automaticSelectionNeverFails : Obligations.AutomaticSelectionNeverFails := by
  intro f s ho
  have havail : familyAvailable f s = true := by simp [familyAvailable, ho, tierSelectable]
  refine ⟨bindFamily_of_available havail, fun hcap hn => bindFamily_of_chosen hn ?_⟩
  rw [hcap, ho]
  decide

/-- The round key of a legal RKSEL (R85, R125). -/
theorem roundKeyOperand_isSome {k : Byte} (h : wellFormed (.ark k) = true) (s : State) :
    ∃ key w, roundKeyOperand k s = some (key, w) := by
  simp only [wellFormed, Bool.or_eq_true, decide_eq_true_eq, beq_iff_eq] at h
  unfold roundKeyOperand
  split
  · exact ⟨_, _, rfl⟩
  · rename_i hk
    have hk255 : k.toNat ≠ 255 := fun h255 => hk (BitVec.eq_of_toNat_eq h255)
    rw [dif_pos (by omega)]
    exact ⟨_, _, rfl⟩

/-- A legal command of a family is that family's command cycle around some `perform` (R105). -/
theorem exec_eq_familyCommand {i : Instr} {f : Family} (hwf : wellFormed i = true) (hf : commandFamily i = some f)
    (s : State) : ∃ p, exec i s = familyCommand f p s := by
  cases i with
  | ark k =>
    obtain ⟨key, w, hk⟩ := roundKeyOperand_isSome hwf s
    cases hf
    exact ⟨_, exec_ark hk⟩
  | select fam => cases hf
  | sub => cases hf; exact ⟨_, exec_sub s⟩
  | invsub => cases hf; exact ⟨_, exec_invsub s⟩
  | shr => cases hf; exact ⟨_, exec_shr s⟩
  | invshr => cases hf; exact ⟨_, exec_invshr s⟩
  | mix => cases hf; exact ⟨_, exec_mix s⟩
  | invmix => cases hf; exact ⟨_, exec_invmix s⟩
  | expand klen blen => cases hf; exact ⟨_, exec_expand klen blen s⟩

/-- R105, R204: a legal command of an unavailable family raises UnsupportedVariant. -/
theorem exec_of_unavailable {i : Instr} {f : Family} {s : State} (hwf : wellFormed i = true)
    (hf : commandFamily i = some f) (h : familyAvailable f s = false) :
    exec i s = .next (raiseError .unsupportedVariant s) := by
  obtain ⟨p, hp⟩ := exec_eq_familyCommand hwf hf s
  rw [hp, familyCommand_of_unavailable p h]

/-- The forced tiers: Scalar is always selectable, Tier1 to Tier3 exactly when present, the others never (R102, R109). -/
theorem tierSelectable_forced (tiers : BitVec 4) :
    tierSelectable tiers 2#3 = tiers.getLsbD 1 ∧ tierSelectable tiers 3#3 = tiers.getLsbD 2 ∧
    tierSelectable tiers 4#3 = tiers.getLsbD 3 ∧ tierSelectable tiers 5#3 = false ∧
    tierSelectable tiers 6#3 = false ∧ tierSelectable tiers 7#3 = false := by
  revert tiers; decide

/-- OVERRIDE.TIER = 1 chooses Scalar (R24, R102). -/
theorem chooseVariant_one {tiers : BitVec 4} (h : tiers.getLsbD 0 = true) : chooseVariant tiers 1#3 = some .scalar :=
  if_pos h

/-- Settles O17: for each value of OVERRIDE.TIER, whether it is selectable. -/
theorem forcedTierBinding : Obligations.ForcedTierBinding := by
  intro f s hn
  obtain ⟨h2, h3, h4, h5, h6, h7⟩ := tierSelectable_forced (capTiers s)
  refine ⟨fun ho => ?one, fun ho => ?two, fun ho => ?three, fun ho => ?four, fun ho => ?absent⟩
  case one => exact bindFamily_of_chosen hn (by rw [ho, chooseVariant_one (capTiers_bit0 s)])
  case two => rw [exists_bindFamily_iff hn, ho, h2]
  case three => rw [exists_bindFamily_iff hn, ho, h3]
  case four => rw [exists_bindFamily_iff hn, ho, h4]
  case absent =>
    have hsel : tierSelectable (capTiers s) s.overrideTier = false := by
      rcases ho with ho | ho | ho <;> simp only [ho, h5, h6, h7]
    have hunavail : familyAvailable f s = false := by simp [familyAvailable, hn, hsel]
    exact ⟨bindFamily_of_unavailable hunavail, fun i hwf hf => exec_of_unavailable hwf hf hunavail⟩

end Sys2Proof.Machine

/-!
Two blocks side by side. R104 (the variants present and bound do not show) and R219 (what unwritten registers contain does
not show) are the same argument about two relations: `Alike U V` is both, `U` saying that the contents of unwritten registers
are compared too and `V` that the variants are. Every operation keeps it, a command that reads unwritten operands only where
`U` holds or the run is still clean.
-/

namespace Sys2Proof.Machine

/-! ### The relation -/

/-- Two data registers with the same marks, and the same bytes in every word that is compared. -/
def RegsAlike (U : Prop) (a b : DataReg) : Prop :=
  a.written = b.written ∧ ∀ j, U ∨ a.written.get j = true → a.bytes.get j = b.bytes.get j

/-- Two states that differ at most in what unwritten registers contain (unless `U`), in which variants are present and bound
(unless `V`), and in the response just given. -/
structure Alike (U V : Prop) (s s' : State) : Prop where
  err : s.err = s'.err
  ekv : s.ekv = s'.ekv
  overrideTier : s.overrideTier = s'.overrideTier
  modelFault : s.modelFault = s'.modelFault
  port : s.port = s'.port
  stateReg : RegsAlike U s.stateReg s'.stateReg
  rkeyReg : RegsAlike U s.rkeyReg s'.rkeyReg
  keyReg : RegsAlike U s.keyReg s'.keyReg
  ekReg : U ∨ s.ekv = true → s.ekReg = s'.ekReg
  bound : ∀ f, (bindingOf s.bindings f).isSome = (bindingOf s'.bindings f).isSome
  selectable : tierSelectable (capTiers s) s.overrideTier = tierSelectable (capTiers s') s'.overrideTier
  variants : V → s.vecTiers = s'.vecTiers ∧ s.bindings = s'.bindings

theorem RegsAlike.refl (U : Prop) (a : DataReg) : RegsAlike U a a := ⟨rfl, fun _ _ => rfl⟩

theorem regsAlike_true_iff (a b : DataReg) : RegsAlike True a b ↔ a = b := by
  refine ⟨fun h => ?_, fun h => h ▸ RegsAlike.refl True a⟩
  obtain ⟨hw, hb⟩ := h
  obtain ⟨bytes, written⟩ := a
  cases hw
  cases Quad.ext_get fun j => hb j (.inl trivial)
  rfl

theorem regsAlike_false_iff (a b : DataReg) : RegsAlike False a b ↔ WrittenWordsAgree a b := by
  simp only [RegsAlike, WrittenWordsAgree, false_or]

/-- `SameUpToVariants` compares the contents of unwritten registers, and not the variants. -/
theorem sameUpToVariants_iff (s s' : State) : SameUpToVariants s s' ↔ Alike True False s s' := by
  constructor
  · rintro ⟨herr, hekv, hov, hst, hrk, hk, hek, hmf, hp, hb, hsel⟩
    exact ⟨herr, hekv, hov, hmf, hp, (regsAlike_true_iff _ _).2 hst, (regsAlike_true_iff _ _).2 hrk,
      (regsAlike_true_iff _ _).2 hk, fun _ => hek, hb, hsel, False.elim⟩
  · intro h
    exact ⟨h.err, h.ekv, h.overrideTier, (regsAlike_true_iff _ _).1 h.stateReg, (regsAlike_true_iff _ _).1 h.rkeyReg,
      (regsAlike_true_iff _ _).1 h.keyReg, h.ekReg (.inl trivial), h.modelFault, h.port, h.bound, h.selectable⟩

/-- `AgreeUpToUnwritten` compares the variants and the response, and not the contents of unwritten registers. -/
theorem agreeUpToUnwritten_iff (s s' : State) : AgreeUpToUnwritten s s' ↔ Alike False True s s' ∧ s.resp = s'.resp := by
  constructor
  · rintro ⟨herr, hekv, hvt, hov, hb, hmf, hp, hresp, hst, hrk, hk, hek⟩
    refine ⟨⟨herr, hekv, hov, hmf, hp, (regsAlike_false_iff _ _).2 hst, (regsAlike_false_iff _ _).2 hrk,
      (regsAlike_false_iff _ _).2 hk, fun h => hek (h.resolve_left id), fun f => by rw [hb],
      by rw [capTiers, capTiers, hvt, hov], fun _ => ⟨hvt, hb⟩⟩, hresp⟩
  · rintro ⟨h, hresp⟩
    obtain ⟨hvt, hb⟩ := h.variants trivial
    exact ⟨h.err, h.ekv, hvt, h.overrideTier, hb, h.modelFault, h.port, hresp, (regsAlike_false_iff _ _).1 h.stateReg,
      (regsAlike_false_iff _ _).1 h.rkeyReg, (regsAlike_false_iff _ _).1 h.keyReg, fun h1 => h.ekReg (.inr h1)⟩

section
variable {U V : Prop} {s s' : State}

/-! ### Each operation keeps it -/

theorem Alike.raiseError (h : Alike U V s s') (e : ErrCode) : Alike U V (raiseError e s) (raiseError e s') :=
  { h with err := rfl }

theorem Alike.completeCommand (h : Alike U V s s') : Alike U V (completeCommand s) (completeCommand s') :=
  { h with err := rfl }

theorem Alike.takeAccess (h : Alike U V s s') (rest : List PortEvent) :
    Alike U V (takeAccess rest s) (takeAccess rest s') :=
  { h with port := rfl }

/-- The response is not compared. -/
theorem Alike.respond (h : Alike U V s s') (r r' : PortResponse) : Alike U V (respond r s) (respond r' s') :=
  { h with }

theorem Alike.recordUnwritten (h : Alike U V s s') (w : Bool) :
    Alike U V (recordUnwritten w s) (recordUnwritten w s') := by
  cases w with
  | true => exact h
  | false => exact { h with modelFault := rfl }

theorem Alike.writeStateReg (h : Alike U V s s') (b : Block) : Alike U V (writeStateReg b s) (writeStateReg b s') :=
  { h with stateReg := RegsAlike.refl U _ }

theorem Alike.writeExpandedKey (h : Alike U V s s') (e : ExpandedKey) :
    Alike U V (writeExpandedKey e s) (writeExpandedKey e s') :=
  { h with ekv := rfl, ekReg := fun _ => rfl }

/-- The two blocks may choose different variants, unless variants are compared. -/
theorem Alike.setBinding (h : Alike U V s s') (f : Family) {v v' : Variant} (hv : V → v = v') :
    Alike U V (setBinding f v s) (setBinding f v' s') := by
  have hbound : ∀ g, (bindingOf (Machine.setBinding f v s).bindings g).isSome =
      (bindingOf (Machine.setBinding f v' s').bindings g).isSome := by
    intro g
    by_cases hg : g = f
    · simp [hg]
    · simp [hg, h.bound g]
  have hvariants : V → s.vecTiers = s'.vecTiers ∧
      (Machine.setBinding f v s).bindings = (Machine.setBinding f v' s').bindings := by
    intro hV
    obtain ⟨htiers, hb⟩ := h.variants hV
    exact ⟨htiers, bindings_ext fun g => by simp [hv hV, hb]⟩
  rw [setBinding_eq f v s, setBinding_eq f v' s']
  exact { h with bound := hbound, variants := hvariants }

/-! ### `Bind` and SELECT -/

theorem Alike.familyAvailable (h : Alike U V s s') (f : Family) : familyAvailable f s = familyAvailable f s' := by
  simp only [Machine.familyAvailable, h.bound f, h.selectable]

/-- `Bind(f)` fails in both blocks, or succeeds in both (R102). -/
theorem Alike.bindFamily (h : Alike U V s s') (f : Family) :
    (bindFamily f s = none ∧ bindFamily f s' = none) ∨
    ∃ s1 s1', bindFamily f s = some s1 ∧ bindFamily f s' = some s1' ∧ Alike U V s1 s1' := by
  cases ha : Machine.familyAvailable f s with
  | false => exact .inl ⟨bindFamily_of_unavailable ha, bindFamily_of_unavailable (h.familyAvailable f ▸ ha)⟩
  | true =>
    obtain ⟨s1, h1⟩ := bindFamily_of_available ha
    obtain ⟨s1', h1'⟩ := bindFamily_of_available (h.familyAvailable f ▸ ha)
    refine .inr ⟨s1, s1', h1, h1', ?_⟩
    have hbound := h.bound f
    obtain ⟨rfl, hs⟩ | ⟨v, hn, hv, rfl⟩ := bindFamily_some h1 <;>
      obtain ⟨rfl, hs'⟩ | ⟨v', hn', hv', rfl⟩ := bindFamily_some h1'
    · exact h
    · simp [hs, hn'] at hbound
    · simp [hs', hn] at hbound
    · refine h.setBinding f fun hV => ?_
      rw [capTiers, (h.variants hV).1, h.overrideTier] at hv
      exact Option.some.inj (hv.symm.trans hv')

theorem Alike.bindEach (h : Alike U V s s') (fs : List Family) :
    Alike U V (bindEach fs s).1 (bindEach fs s').1 ∧ (bindEach fs s).2 = (bindEach fs s').2 := by
  induction fs generalizing s s' with
  | nil => exact ⟨h, rfl⟩
  | cons f fs ih =>
    obtain ⟨hn, hn'⟩ | ⟨s1, s1', h1, h1', hbind⟩ := h.bindFamily f
    · simp only [Machine.bindEach, hn, hn']
      exact ⟨(ih h).1, trivial⟩
    · simp only [Machine.bindEach, h1, h1']
      exact ih hbind

theorem Alike.finishSelect {r r' : State × Bool} (h : Alike U V r.1 r'.1) (hok : r.2 = r'.2) :
    Alike U V (finishSelect r) (finishSelect r') := by
  unfold Machine.finishSelect
  rw [hok]
  split
  · exact h.completeCommand
  · exact h.raiseError _

/-! ### Reading operands -/

theorem isWritten_iff (a : DataReg) : isWritten a = true ↔ ∀ j, a.written.get j = true := by
  simp [isWritten, Fin.forall_fin_succ, Quad.get, and_assoc]

theorem RegsAlike.isWritten {a b : DataReg} (h : RegsAlike U a b) : isWritten a = isWritten b := by
  simp only [Machine.isWritten, h.1]

/-- A register read whole is the same in both, if it is compared whole or written. -/
theorem RegsAlike.bytes {a b : DataReg} (h : RegsAlike U a b) (hr : U ∨ Machine.isWritten a = true) :
    a.bytes = b.bytes :=
  Quad.ext_get fun j => h.2 j (hr.imp_right fun hw => (isWritten_iff a).1 hw j)

/-- In a run that stays clean, what was read was written (R219). -/
theorem written_of_clean {w : Bool} (h : U ∨ Clean (Machine.recordUnwritten w s)) : U ∨ w = true := by
  refine h.imp_right fun hc => ?_
  cases w with
  | true => rfl
  | false => cases hc

/-- Both answer a next state, and these are alike if unwritten contents are compared or the run is still clean. -/
def NextAlike (U V : Prop) (o o' : Host.Outcome State Fault Refusal) : Prop :=
  ∃ t t', o = .next t ∧ o' = .next t' ∧ (U ∨ Clean t → Alike U V t t')

theorem Alike.next {t t' : State} (h : Alike U V t t') : NextAlike U V (.next t) (.next t') :=
  ⟨t, t', rfl, rfl, fun _ => h⟩

/-- As `NextAlike`, for the `Perform` of a command. -/
def PerformAlike (U V : Prop) (r r' : Except ErrCode State) : Prop :=
  (∃ e, r = .error e ∧ r' = .error e) ∨
  ∃ t t', r = .ok t ∧ r' = .ok t' ∧ (U ∨ Clean t → Alike U V t t')

theorem Alike.performOnState (h : Alike U V s s') (g : Block → Block) :
    PerformAlike U V (performOnState g s) (performOnState g s') := by
  refine .inr ⟨_, _, rfl, rfl, fun hc => ?_⟩
  have hbytes := h.stateReg.bytes (written_of_clean hc)
  rw [← hbytes, ← h.stateReg.isWritten]
  exact (h.recordUnwritten _).writeStateReg _

theorem Alike.performArk (h : Alike U V s s') {k k' : Block} {w : Bool} (hk : U ∨ w = true → k = k') :
    PerformAlike U V (performArk k w s) (performArk k' w s') := by
  refine .inr ⟨_, _, rfl, rfl, fun hc => ?_⟩
  have hread := written_of_clean hc
  simp only [Bool.and_eq_true] at hread
  have hbytes := h.stateReg.bytes (hread.imp_right And.left)
  rw [← hbytes, ← h.stateReg.isWritten, ← hk (hread.imp_right And.right)]
  exact (h.recordUnwritten _).writeStateReg _

theorem Alike.performExpand (h : Alike U V s s') (klen blen : Byte) :
    PerformAlike U V (performExpand klen blen s) (performExpand klen blen s') := by
  unfold Machine.performExpand
  cases expandSizeError klen blen with
  | some e => exact .inl ⟨e, rfl, rfl⟩
  | none =>
    refine .inr ⟨_, _, rfl, rfl, fun hc => ?_⟩
    rw [← h.keyReg.bytes (written_of_clean hc), ← h.keyReg.isWritten]
    exact (h.recordUnwritten _).writeExpandedKey _

/-- RKSEL is illegal in both blocks, or selects round keys with the same mark and, if they are compared or written, the same
bytes (R125). -/
theorem Alike.roundKeyOperand (h : Alike U V s s') (rksel : Byte) :
    (roundKeyOperand rksel s = none ∧ roundKeyOperand rksel s' = none) ∨
    ∃ k k' w, roundKeyOperand rksel s = some (k, w) ∧ roundKeyOperand rksel s' = some (k', w) ∧
      (U ∨ w = true → k = k') := by
  unfold Machine.roundKeyOperand
  split
  · exact .inr ⟨_, _, _, rfl, by rw [← h.rkeyReg.isWritten], h.rkeyReg.bytes⟩
  · split
    · exact .inr ⟨_, _, _, rfl, by rw [← h.ekv], fun hr => by rw [h.ekReg hr]⟩
    · exact .inl ⟨rfl, rfl⟩

/-! ### Commands -/

/-- The command cycle (R105) around performs that keep the relation. -/
theorem Alike.familyCommand (h : Alike U V s s') (f : Family) {p p' : State → Except ErrCode State}
    (hp : ∀ {t t'}, Alike U V t t' → PerformAlike U V (p t) (p' t')) :
    NextAlike U V (familyCommand f p s) (familyCommand f p' s') := by
  unfold Machine.familyCommand
  obtain ⟨hn, hn'⟩ | ⟨s1, s1', h1, h1', hbind⟩ := h.bindFamily f
  · rw [hn, hn']
    exact (h.raiseError _).next
  · rw [h1, h1']
    obtain ⟨e, he, he'⟩ | ⟨s2, s2', h2, h2', hperf⟩ := hp hbind
    · simp only [he, he']
      exact (hbind.raiseError e).next
    · simp only [h2, h2']
      exact ⟨_, _, rfl, rfl, fun hc => (hperf hc).completeCommand⟩

theorem Alike.exec (h : Alike U V s s') (i : Instr) : NextAlike U V (exec i s) (exec i s') := by
  cases i with
  | sub => exact h.familyCommand .confusion fun h1 => h1.performOnState _
  | invsub => exact h.familyCommand .confusion fun h1 => h1.performOnState _
  | ark rksel =>
    obtain ⟨hn, hn'⟩ | ⟨k, k', w, hk, hk', hkeys⟩ := h.roundKeyOperand rksel
    · simp only [Machine.exec, execArk, hn, hn']
      exact (h.raiseError _).next
    · rw [exec_ark hk, exec_ark hk']
      exact h.familyCommand .confusion fun h1 => h1.performArk hkeys
  | shr => exact h.familyCommand .diffusion fun h1 => h1.performOnState _
  | invshr => exact h.familyCommand .diffusion fun h1 => h1.performOnState _
  | mix => exact h.familyCommand .diffusion fun h1 => h1.performOnState _
  | invmix => exact h.familyCommand .diffusion fun h1 => h1.performOnState _
  | expand klen blen => exact h.familyCommand .keySchedule fun h1 => h1.performExpand klen blen
  | select fam =>
    simp only [Machine.exec, execSelect]
    cases selectedFamilies fam with
    | none => exact (h.raiseError _).next
    | some fs =>
      obtain ⟨hbind, hok⟩ := h.bindEach fs
      exact (hbind.finishSelect hok).next

theorem Alike.execute (h : Alike U V s s') (w : Word) : NextAlike U V (execute w s) (execute w s') := by
  unfold Machine.execute
  cases decode w with
  | error r => exact (h.raiseError _).next
  | ok i => exact h.exec i

/-! ### The port -/

/-- A written word takes its mark and its bytes in both. -/
theorem RegsAlike.setRegWord {a b : DataReg} (h : RegsAlike U a b) (j : Fin 4) (v : Word) :
    RegsAlike U (setRegWord a j v) (setRegWord b j v) := by
  refine ⟨by simp only [setRegWord_written, h.1], fun i hi => ?_⟩
  by_cases hij : i = j
  · subst hij
    simp [Machine.setRegWord]
  · rw [setRegWord_written, Quad.get_set_ne _ _ hij] at hi
    rw [setRegWord_get_ne a v hij, setRegWord_get_ne b v hij]
    exact h.2 i hi

/-- A write, where a new OVERRIDE.TIER can be selected in both blocks or in neither. -/
theorem Alike.windowWrite (h : Alike U V s s') (r : WindowReg) (v : Word)
    (hov : r = .override →
      tierSelectable (capTiers s) (v.extractLsb' 0 3) = tierSelectable (capTiers s') (v.extractLsb' 0 3)) :
    NextAlike U V (windowWrite r v s) (windowWrite r v s') := by
  cases r with
  | cmd => exact h.execute v
  | status | cap | bind | ekWord i => exact h.next
  | override => exact Alike.next { h with overrideTier := rfl, selectable := hov rfl }
  | stateWord j => exact Alike.next { h with stateReg := h.stateReg.setRegWord j v }
  | rkeyWord j => exact Alike.next { h with rkeyReg := h.rkeyReg.setRegWord j v }
  | keyWord j => exact Alike.next { h with keyReg := h.keyReg.setRegWord j v }

/-- A write to a register leaves the response alone: it has been given before (R53). -/
theorem windowWrite_resp {r : WindowReg} {v : Word} {t : State} (h : windowWrite r v s = .next t) : t.resp = s.resp := by
  by_cases hr : r = .cmd
  · subst hr
    obtain ⟨e, -, rfl⟩ | ⟨i, -, hexec⟩ := execute_cases h
    · rfl
    · obtain ⟨-, -, -, -, -, hresp⟩ := exec_keepsHostRegisters hexec
      exact hresp
  · cases windowWrite_cases hr h <;> rfl

/-- Both blocks agree whether a register is written, and on its value if that is compared or written; CAP and BIND show
the variants. -/
theorem Alike.windowRead (h : Alike U V s s') (r : WindowReg) :
    (windowRead r s).2 = (windowRead r s').2 ∧
    (U ∨ (windowRead r s).2 = true → V ∨ (r ≠ .cap ∧ r ≠ .bind) →
      (windowRead r s).1 = (windowRead r s').1) := by
  have word : ∀ {a b : DataReg} (j : Fin 4), RegsAlike U a b →
      a.written.get j = b.written.get j ∧
      (U ∨ a.written.get j = true → V ∨ (r ≠ .cap ∧ r ≠ .bind) →
        packWord (a.bytes.get j) = packWord (b.bytes.get j)) :=
    fun j hreg => ⟨by rw [hreg.1], fun hr _ => by rw [hreg.2 j hr]⟩
  cases r with
  | cmd => exact ⟨rfl, fun _ _ => rfl⟩
  | status => exact ⟨rfl, fun _ _ => by simp only [Machine.windowRead, statusWord, h.err, h.ekv]⟩
  | cap =>
    refine ⟨rfl, fun _ hV => ?_⟩
    have hV : V := by simpa using hV
    simp only [Machine.windowRead, capWord, capTiers, (h.variants hV).1]
  | override => exact ⟨rfl, fun _ _ => by simp only [Machine.windowRead, overrideWord, h.overrideTier]⟩
  | bind =>
    refine ⟨rfl, fun _ hV => ?_⟩
    have hV : V := by simpa using hV
    simp only [Machine.windowRead, bindWord, (h.variants hV).2]
  | stateWord j => exact word j h.stateReg
  | rkeyWord j => exact word j h.rkeyReg
  | keyWord j => exact word j h.keyReg
  | ekWord i => exact ⟨h.ekv, fun hr _ => by simp only [Machine.windowRead, h.ekReg hr]⟩

/-- The offset of a register of the window (R51). -/
def regOffset (r : WindowReg) : Nat :=
  match r with
  | .cmd => 0x000
  | .status => 0x004
  | .cap => 0x008
  | .override => 0x00C
  | .bind => 0x010
  | .stateWord j => 0x020 + 4 * j.val
  | .rkeyWord j => 0x030 + 4 * j.val
  | .keyWord j => 0x040 + 4 * j.val
  | .ekWord i => 0x100 + 4 * i.val

/-- A register stands at its offset only. -/
theorem toNat_of_mem_windowReg : ∀ off : BitVec 9, ∀ r ∈ windowReg off, off.toNat = regOffset r := by
  decide

theorem acceptedReg_eq_some {off : BitVec 9} {bits : Nat} {r : WindowReg} (h : acceptedReg off bits = some r) :
    bits = 32 ∧ windowReg off = some r := by
  by_cases hb : bits = 32
  · exact ⟨hb, by rwa [hb, acceptedReg_32] at h⟩
  · rw [acceptedReg_of_width hb] at h
    cases h

/-- The next access is a read of CAP or BIND (R24, R26). -/
def ReadsVariants (s : State) : Prop :=
  ∃ off bits rest, s.port = .read off bits :: rest ∧ (off = 0x008#9 ∨ off = 0x010#9)

/-- A read: the same response, except for one of CAP or BIND that shows variants which are not compared (R52). -/
theorem Alike.regRead (h : Alike U V s s') (off : BitVec 9) (bits : Nat) :
    Alike U V (regRead off bits s) (regRead off bits s') ∧
    (U ∨ Clean (Machine.regRead off bits s) → V ∨ (off ≠ 0x008#9 ∧ off ≠ 0x010#9) →
      (Machine.regRead off bits s).resp = (Machine.regRead off bits s').resp) := by
  unfold Machine.regRead
  cases hacc : acceptedReg off bits with
  | none => exact ⟨h.respond _ _, fun _ _ => rfl⟩
  | some r =>
    obtain ⟨hmark, hvalue⟩ := h.windowRead r
    have hoff := toNat_of_mem_windowReg off r (acceptedReg_eq_some hacc).2
    refine ⟨?_, fun hc hV => ?_⟩
    · simp only [← hmark]
      exact (h.recordUnwritten _).respond _ _
    · have hshown : V ∨ (r ≠ .cap ∧ r ≠ .bind) := by
        refine hV.imp_right fun ⟨h8, h10⟩ => ⟨?_, ?_⟩ <;> rintro rfl
        · exact h8 (BitVec.eq_of_toNat_eq hoff)
        · exact h10 (BitVec.eq_of_toNat_eq hoff)
      simp only [respond_resp, hvalue (written_of_clean hc) hshown]

/-- A write: the same response always (R53). -/
theorem Alike.regWrite (h : Alike U V s s') (off : BitVec 9) (bits : Nat) (v : Word)
    (hov : off = 0x00C#9 → bits = 32 →
      tierSelectable (capTiers s) (v.extractLsb' 0 3) = tierSelectable (capTiers s') (v.extractLsb' 0 3)) :
    ∃ t t', regWrite off bits v s = .next t ∧ regWrite off bits v s' = .next t' ∧
      (U ∨ Clean t → Alike U V t t') ∧ t.resp = t'.resp := by
  unfold Machine.regWrite
  cases hacc : acceptedReg off bits with
  | none => exact ⟨_, _, rfl, rfl, fun _ => h.respond _ _, rfl⟩
  | some r =>
    obtain ⟨hbits, hreg⟩ := acceptedReg_eq_some hacc
    have hoff := toNat_of_mem_windowReg off r hreg
    obtain ⟨t, t', ht, ht', halike⟩ :=
      (h.respond .writeDone .writeDone).windowWrite r v fun hr =>
        hov (BitVec.eq_of_toNat_eq (by rw [hoff, hr]; rfl)) hbits
    exact ⟨t, t', ht, ht', halike, (windowWrite_resp ht).trans (windowWrite_resp ht').symm⟩

/-- TIERS apart, reset leaves one state, in which OVERRIDE lets every family bind (R36). -/
theorem Alike.resetEvent (h : Alike U V s s') : Alike U V (resetEvent s) (resetEvent s') where
  err := rfl
  ekv := rfl
  overrideTier := rfl
  modelFault := h.modelFault
  port := h.port
  stateReg := RegsAlike.refl U _
  rkeyReg := RegsAlike.refl U _
  keyReg := RegsAlike.refl U _
  ekReg := fun _ => rfl
  bound := fun _ => rfl
  selectable := rfl
  variants := fun hV => ⟨(h.variants hV).1, rfl⟩

/-- One step of two blocks that are alike (R104, R219). -/
theorem Alike.step {t : State} (h : Alike U V s s')
    (hov : ∀ v rest, s.port = .write 0x00C#9 32 v :: rest →
      tierSelectable (capTiers s) (v.extractLsb' 0 3) = tierSelectable (capTiers s') (v.extractLsb' 0 3))
    (hstep : step s = .next t) (hc : U ∨ Clean t) :
    ∃ t', Machine.step s' = .next t' ∧ Alike U V t t' ∧ (V ∨ ¬ ReadsVariants s → t.resp = t'.resp) := by
  cases hp : s.port with
  | nil =>
    rw [step_idle hp] at hstep
    cases hstep
    exact ⟨_, step_idle (h.port ▸ hp), h.takeAccess [], fun _ => rfl⟩
  | cons e rest =>
    have htake := h.takeAccess rest
    rw [step_service hp] at hstep
    rw [step_service (s := s') (h.port ▸ hp)]
    cases e with
    | reset =>
      cases hstep
      exact ⟨_, rfl, htake.resetEvent, fun _ => rfl⟩
    | read off bits =>
      cases hstep
      obtain ⟨halike, hresp⟩ := htake.regRead off bits
      refine ⟨_, rfl, halike, fun hV => hresp hc (hV.imp_right fun hno => ?_)⟩
      exact ⟨fun h8 => hno ⟨off, bits, rest, hp, .inl h8⟩, fun h10 => hno ⟨off, bits, rest, hp, .inr h10⟩⟩
    | write off bits v =>
      obtain ⟨u, u', hu, hu', halike, hresp⟩ := htake.regWrite off bits v fun hoff hbits =>
        hov v rest (by rw [hp, hoff, hbits])
      cases hu.symm.trans hstep
      exact ⟨u', hu', halike hc, fun _ => hresp⟩

end

/-! ### The statements about two blocks -/

/-- Settles O55: the variants are not compared, all contents are. -/
theorem variantsAreObservablyEquivalent : Obligations.VariantsAreObservablyEquivalent := by
  intro s s' t h hov hstep
  obtain ⟨t', hstep', halike, hresp⟩ := ((sameUpToVariants_iff s s').1 h).step hov hstep (.inl trivial)
  refine ⟨t', hstep', (sameUpToVariants_iff t t').2 halike, fun hne => ?_⟩
  exact Classical.not_not.1 fun hno => hne (hresp (.inr hno))

/-- Settles O56: the variants are compared, of the contents only the written ones. -/
theorem unwrittenContentsNeverShow : Obligations.UnwrittenContentsNeverShow := by
  intro s s' t h hstep hclean
  obtain ⟨halike, -⟩ := (agreeUpToUnwritten_iff s s').1 h
  have hcap : capTiers s = capTiers s' := by rw [capTiers, capTiers, (halike.variants trivial).1]
  obtain ⟨t', hstep', halike', hresp⟩ := halike.step (fun v _ _ => by rw [hcap]) hstep (.inr hclean)
  exact ⟨t', hstep', (agreeUpToUnwritten_iff t t').2 ⟨halike', hresp (.inl trivial)⟩⟩

end Sys2Proof.Machine

/-!
The register window (20_memory.md): what a read answers, which accesses are rejected, and a data word read back after a
write.
-/

namespace Sys2Proof.Machine

/-! ### What a read answers -/

/-- The value of a word from its four bytes, byte 0 least significant (R55). -/
theorem packWord_of_bytes {c : Column} {b0 b1 b2 b3 : Byte} (h0 : b0 = c.get 0) (h1 : b1 = c.get 1) (h2 : b2 = c.get 2)
    (h3 : b3 = c.get 3) : packWord c = b3 ++ b2 ++ b1 ++ b0 := by
  rw [h0, h1, h2, h3]
  rfl

/-- Word `j` of a data register is its bytes `4j` to `4j + 3` (R55). -/
theorem packWord_get (b : Block) (j : Fin 4) :
    packWord (Quad.get b j) =
      Block.byte b ⟨4 * j.val + 3, by omega⟩ ++ Block.byte b ⟨4 * j.val + 2, by omega⟩ ++
      Block.byte b ⟨4 * j.val + 1, by omega⟩ ++ Block.byte b ⟨4 * j.val, by omega⟩ :=
  packWord_of_bytes (Block.byte_eq b 0 j _) (Block.byte_eq b 1 j _) (Block.byte_eq b 2 j _) (Block.byte_eq b 3 j _)

/-- Byte `4i + r` of the expanded key is byte `r` of its word `i` (R31, R161). -/
theorem expandedKey_byte_eq (e : ExpandedKey) (r : Fin 4) (i : Fin 44) (h : 4 * i.val + r.val < 176) :
    e.byte ⟨4 * i.val + r.val, h⟩ = (e.word i).get r := by
  have hi : (⟨(4 * i.val + r.val) / 4, by omega⟩ : Fin 44) = i := Fin.ext (by simp only; omega)
  have hr : (⟨(4 * i.val + r.val) % 4, by omega⟩ : Fin 4) = r := Fin.ext (by simp only; omega)
  simp only [ExpandedKey.byte, hi, hr]

/-- Word `i` of EK is its bytes `4i` to `4i + 3` (R31, R55). -/
theorem packWord_word (e : ExpandedKey) (i : Fin 44) :
    packWord (e.word i) =
      e.byte ⟨4 * i.val + 3, by omega⟩ ++ e.byte ⟨4 * i.val + 2, by omega⟩ ++
      e.byte ⟨4 * i.val + 1, by omega⟩ ++ e.byte ⟨4 * i.val, by omega⟩ :=
  packWord_of_bytes (expandedKey_byte_eq e 0 i _) (expandedKey_byte_eq e 1 i _) (expandedKey_byte_eq e 2 i _)
    (expandedKey_byte_eq e 3 i _)

/-- Taking an access from the port changes no register of the window. -/
@[simp] theorem windowRead_takeAccess (r : WindowReg) (rest : List PortEvent) (s : State) :
    windowRead r (takeAccess rest s) = windowRead r s := by
  cases r <;> rfl

/-- Recording a read touches the record alone (R219). -/
theorem recordUnwritten_eq (w : Bool) (s : State) :
    recordUnwritten w s = { s with modelFault := if w then s.modelFault else some .readUnwritten } := by
  cases w <;> rfl

/-- A 32-bit read of a mapped register: the response, the record, and no register changed (R52, R219). -/
theorem step_read {s : State} {off : BitVec 9} {rest : List PortEvent} {r : WindowReg} {v : Word} {w : Bool}
    (h : s.port = .read off 32 :: rest) (hr : windowReg off = some r) (hv : windowRead r s = (v, w)) :
    step s = .next { s with
      port := rest
      resp := some (.readData v)
      modelFault := if w then s.modelFault else some .readUnwritten } := by
  simp only [step_service h, service, regRead, acceptedReg_32, hr, windowRead_takeAccess, hv, recordUnwritten_eq]
  rfl

/-- Settles O10: each offset's register, and what `windowRead` reads there. -/
theorem readReturnsRegister : Obligations.ReadReturnsRegister := by
  intro s off rest hp
  refine ⟨?cmd, ?status, ?cap, ?override, ?bind, ?state, ?rkey, ?key, ?ek⟩
  case cmd =>
    rintro rfl
    exact step_read (r := .cmd) hp (by decide) rfl
  case status =>
    rintro rfl
    exact step_read (r := .status) hp (by decide) rfl
  case cap =>
    rintro rfl
    exact step_read (r := .cap) hp (by decide) rfl
  case override =>
    rintro rfl
    exact step_read (r := .override) hp (by decide) rfl
  case bind =>
    rintro rfl
    exact step_read (r := .bind) hp (by decide) rfl
  case state =>
    exact fun j hoff => step_read hp (windowReg_stateWord j hoff) (Prod.ext (packWord_get _ j) rfl)
  case rkey =>
    exact fun j hoff => step_read hp (windowReg_rkeyWord j hoff) (Prod.ext (packWord_get _ j) rfl)
  case key =>
    exact fun j hoff => step_read hp (windowReg_keyWord j hoff) (Prod.ext (packWord_get _ j) rfl)
  case ek =>
    exact fun i hoff => step_read hp (windowReg_ekWord i hoff) (Prod.ext (packWord_word _ i) rfl)

/-! ### Rejected accesses -/

/-- Every register stands at a multiple of 4, outside the gaps of the map (R51, R54). -/
theorem regOffset_mapped (r : WindowReg) :
    regOffset r % 4 = 0 ∧ ¬ (0x014 ≤ regOffset r ∧ regOffset r ≤ 0x01C) ∧
    ¬ (0x050 ≤ regOffset r ∧ regOffset r ≤ 0x0FC) ∧ ¬ (0x1B0 ≤ regOffset r ∧ regOffset r ≤ 0x1FC) := by
  cases r with
  | cmd | status | cap | override | bind => decide
  | stateWord j | rkeyWord j | keyWord j | ekWord i => simp only [regOffset]; omega

/-- R56: the three causes of the error response. -/
theorem acceptedReg_eq_none {off : BitVec 9} {bits : Nat}
    (h : off.toNat % 4 ≠ 0 ∨ bits ≠ 32 ∨ (0x014 ≤ off.toNat ∧ off.toNat ≤ 0x01C) ∨
      (0x050 ≤ off.toNat ∧ off.toNat ≤ 0x0FC) ∨ (0x1B0 ≤ off.toNat ∧ off.toNat ≤ 0x1FC)) :
    acceptedReg off bits = none := by
  cases hacc : acceptedReg off bits with
  | none => rfl
  | some r =>
    obtain ⟨hbits, hreg⟩ := acceptedReg_eq_some hacc
    have hmapped := regOffset_mapped r
    rw [← toNat_of_mem_windowReg off r hreg] at hmapped
    omega

/-- Settles O12: a read or a write that reaches no register only leaves the port and gets its response. -/
theorem busErrorChangesNothing : Obligations.BusErrorChangesNothing := by
  intro s off bits v rest hrej hp
  have hacc := acceptedReg_eq_none hrej
  rcases hp with hp | hp
  case inl => simp only [step_service hp, service, regRead, hacc]; rfl
  case inr => simp only [step_service hp, service, regWrite, hacc]; rfl

/-! ### A data word read back -/

/-- The words the host reads and writes as data: those of STATE, RKEY and KEY (R27 to R29). -/
def IsHostWord (r : WindowReg) : Prop :=
  match r with
  | .stateWord _ | .rkeyWord _ | .keyWord _ => True
  | .cmd | .status | .cap | .override | .bind | .ekWord _ => False

/-- R51: the three data registers fill the offsets 0x020 to 0x04C. -/
theorem exists_isHostWord {off : BitVec 9} (halign : off.toNat % 4 = 0) (hlo : 0x020 ≤ off.toNat)
    (hhi : off.toNat < 0x050) : ∃ r, windowReg off = some r ∧ IsHostWord r := by
  by_cases hstate : off.toNat < 0x030
  · exact ⟨_, windowReg_stateWord ⟨(off.toNat - 0x020) / 4, by omega⟩ (by simp only; omega), trivial⟩
  by_cases hrkey : off.toNat < 0x040
  · exact ⟨_, windowReg_rkeyWord ⟨(off.toNat - 0x030) / 4, by omega⟩ (by simp only; omega), trivial⟩
  · exact ⟨_, windowReg_keyWord ⟨(off.toNat - 0x040) / 4, by omega⟩ (by simp only; omega), trivial⟩

/-- The word just written packs back to its value, and is marked (R32, R53, R55). -/
theorem packWord_setRegWord (a : DataReg) (j : Fin 4) (v : Word) :
    (packWord ((setRegWord a j v).bytes.get j), (setRegWord a j v).written.get j) = (v, true) := by
  simp [setRegWord]

/-- A write to a data word leaves it readable as the value written; the port and the record stay (R53, R57). -/
theorem windowRead_after_windowWrite {r : WindowReg} (hr : IsHostWord r) (v : Word) (s : State) :
    ∃ t, windowWrite r v s = .next t ∧ windowRead r t = (v, true) ∧ t.port = s.port ∧ t.modelFault = s.modelFault := by
  cases r with
  | stateWord j => exact ⟨_, rfl, packWord_setRegWord s.stateReg j v, rfl, rfl⟩
  | rkeyWord j => exact ⟨_, rfl, packWord_setRegWord s.rkeyReg j v, rfl, rfl⟩
  | keyWord j => exact ⟨_, rfl, packWord_setRegWord s.keyReg j v, rfl, rfl⟩
  | cmd | status | cap | override | bind | ekWord i => exact hr.elim

/-- Settles O13: the write's step leaves the word readable as `v` and marked, and the read's step answers it. -/
theorem readAfterWriteReturnsValue : Obligations.ReadAfterWriteReturnsValue := by
  intro s off v rest hp halign hlo hhi
  obtain ⟨r, hreg, hword⟩ := exists_isHostWord halign hlo hhi
  obtain ⟨t, hwrite, hread, hport, hfault⟩ :=
    windowRead_after_windowWrite hword v (respond .writeDone (takeAccess (.read off 32 :: rest) s))
  exact ⟨t, _, (step_write hp hreg).trans hwrite, step_read hport hreg hread, rfl, rfl, hfault⟩

end Sys2Proof.Machine

/-!
The encoding (30_encoding.md): decode and encode as inverses, the match and mask of each command, and the illegal words.
`decode_eq_ok_iff` says by the fields of a word what the decoder accepts; `encodes_iff` ties that to the encoder, and
`and_eq_iff_fields` to the masks.
-/

namespace Sys2Proof

/-! ### Decode and encode -/

@[simp] theorem wellFormed_ark (k : Byte) : wellFormed (.ark k) = true ↔ k ≤ 0x0A#8 ∨ k = 0xFF#8 := by
  simp [wellFormed, BitVec.le_def, BitVec.toNat_eq]

@[simp] theorem wellFormed_select (k : Byte) : wellFormed (.select k) = true ↔ k ≤ 0x03#8 := by
  simp [wellFormed, BitVec.le_def]

/-- A word whose reserved field is 0 is assembled from the values of its other fields (R80). -/
theorem assemble_eq {w : Word} {op a b : Byte} (hz : fieldZ w = 0#8) (hop : fieldOp w = op) (ha : fieldA w = a)
    (hb : fieldB w = b) : assemble op a b = w := by
  rw [← hop, ← ha, ← hb, assemble_fields hz]

/-- The fields of a word are those of command `i` exactly when `i` is well-formed and assembles to the word (R82, R86). -/
theorem encodes_iff (w : Word) (i : Instr) : Encodes w i ↔ wellFormed i = true ∧ encode i = w := by
  constructor
  · rintro ⟨hz, hfields⟩
    cases i with
    | ark k =>
      obtain ⟨hop, ha, hb, hk⟩ := hfields
      exact ⟨(wellFormed_ark k).2 hk, assemble_eq hz hop ha hb⟩
    | expand klen blen =>
      obtain ⟨hop, ha, hb⟩ := hfields
      exact ⟨rfl, assemble_eq hz hop ha hb⟩
    | select k =>
      obtain ⟨hop, ha, hb, hk⟩ := hfields
      exact ⟨(wellFormed_select k).2 hk, assemble_eq hz hop ha hb⟩
    | sub | invsub | shr | invshr | mix | invmix =>
      obtain ⟨hop, ha, hb⟩ := hfields
      exact ⟨rfl, assemble_eq hz hop ha hb⟩
  · rintro ⟨hwf, rfl⟩
    cases i with
    | ark k | select k => simpa [Encodes, encode] using hwf
    | sub | invsub | shr | invshr | mix | invmix | expand klen blen => simp [Encodes, encode]

/-- The decoder accepts exactly the words of well-formed commands. -/
theorem decode_eq_ok_iff_encode (w : Word) (i : Instr) : decode w = .ok i ↔ wellFormed i = true ∧ encode i = w :=
  (decode_eq_ok_iff w i).trans (encodes_iff w i)

/-- Settles O2: the word of a well-formed command has the fields the decoder accepts. -/
theorem decodeOfEncodeIsTheCommand : Obligations.DecodeOfEncodeIsTheCommand :=
  fun i hwf => (decode_eq_ok_iff_encode (encode i) i).2 ⟨hwf, rfl⟩

/-- Settles O3: the fields the decoder accepts are those of a well-formed command's word. -/
theorem everyLegalWordIsAnEncoding : Obligations.EveryLegalWordIsAnEncoding :=
  fun w i hdec => (decode_eq_ok_iff_encode w i).1 hdec

/-- Settles O1: each word is the assembled word of its command, which is well-formed. -/
theorem commandWordsDecode : Obligations.CommandWordsDecode := by
  have word : ∀ i w, wellFormed i = true → encode i = w → decode w = .ok i :=
    fun i w hwf hw => (decode_eq_ok_iff_encode w i).2 ⟨hwf, hw⟩
  exact ⟨word _ _ rfl rfl, word _ _ rfl rfl, word _ _ rfl rfl, word _ _ rfl rfl, word _ _ rfl rfl, word _ _ rfl rfl,
    word _ _ rfl rfl, word _ _ rfl rfl, word _ _ rfl rfl, word _ _ rfl rfl⟩

/-! ### Match and mask -/

/-- A word is its four fields (R80). -/
theorem word_eq_iff_fields (v w : Word) :
    v = w ↔ fieldOp v = fieldOp w ∧ fieldA v = fieldA w ∧ fieldB v = fieldB w ∧ fieldZ v = fieldZ w := by
  refine ⟨fun h => h ▸ ⟨rfl, rfl, rfl, rfl⟩, fun ⟨hop, ha, hb, hz⟩ => ?_⟩
  have hunpack : Machine.unpackWord v = Machine.unpackWord w :=
    (Quad.mk.injEq ..).mpr ⟨hop, ha, hb, hz⟩
  rw [← Machine.packWord_unpackWord v, hunpack, Machine.packWord_unpackWord]

/-- A masked word has a given value exactly when each of its fields, masked, has that value's field. -/
theorem and_eq_iff_fields (w m v : Word) :
    w &&& m = v ↔ fieldOp w &&& fieldOp m = fieldOp v ∧ fieldA w &&& fieldA m = fieldA v ∧
      fieldB w &&& fieldB m = fieldB v ∧ fieldZ w &&& fieldZ m = fieldZ v := by
  simp only [word_eq_iff_fields, fieldOp, fieldA, fieldB, fieldZ, BitVec.extractLsb'_and]

theorem byte_and_ones (x : Byte) : x &&& 0xFF#8 = x := BitVec.and_allOnes

/-- A mask that compares OP and Z whole: of A and B it leaves what it covers (R83). -/
theorem and_eq_assemble_iff {w m : Word} {op ma mb : Byte} (hop : fieldOp m = 0xFF#8) (ha : fieldA m = ma)
    (hb : fieldB m = mb) (hz : fieldZ m = 0xFF#8) :
    w &&& m = assemble op 0#8 0#8 ↔
      fieldZ w = 0#8 ∧ fieldOp w = op ∧ fieldA w &&& ma = 0#8 ∧ fieldB w &&& mb = 0#8 := by
  simp only [and_eq_iff_fields, hop, ha, hb, hz, byte_and_ones, fieldOp_assemble, fieldA_assemble, fieldB_assemble,
    fieldZ_assemble]
  tauto

/-- The mask of the commands without operands: no field is free (R83). -/
theorem and_maskPlain_iff (w : Word) (op : Byte) :
    w &&& 0xFFFFFFFF#32 = assemble op 0#8 0#8 ↔ fieldZ w = 0#8 ∧ fieldOp w = op ∧ fieldA w = 0#8 ∧ fieldB w = 0#8 := by
  rw [and_eq_assemble_iff (ma := 0xFF#8) (mb := 0xFF#8) rfl rfl rfl rfl, byte_and_ones, byte_and_ones]

/-- The mask of ARK and SELECT: A is free (R83). -/
theorem and_maskFreeA_iff (w : Word) (op : Byte) :
    w &&& 0xFFFF00FF#32 = assemble op 0#8 0#8 ↔ fieldZ w = 0#8 ∧ fieldOp w = op ∧ fieldB w = 0#8 := by
  rw [and_eq_assemble_iff (ma := 0#8) (mb := 0xFF#8) rfl rfl rfl rfl, byte_and_ones]
  simp

/-- The mask of EXPAND: A and B are free (R83). -/
theorem and_maskFreeAB_iff (w : Word) (op : Byte) :
    w &&& 0xFF0000FF#32 = assemble op 0#8 0#8 ↔ fieldZ w = 0#8 ∧ fieldOp w = op := by
  rw [and_eq_assemble_iff (ma := 0#8) (mb := 0#8) rfl rfl rfl rfl]
  simp

/-- The legal values of RKSEL, as numbers (R83). -/
theorem rksel_legal_iff (k : Byte) : (k ≤ 0x0A#8 ∨ k = 0xFF#8) ↔ (k.toNat ≤ 10 ∨ k.toNat = 255) := by
  simp [BitVec.le_def, BitVec.toNat_eq]

/-- ARK, by its match, its mask and the legal values of RKSEL (R83). -/
theorem decode_ark_iff_match (w : Word) (k : Byte) :
    decode w = .ok (.ark k) ↔
      w &&& 0xFFFF00FF#32 = assemble 0x03#8 0#8 0#8 ∧ fieldA w = k ∧ (k.toNat ≤ 10 ∨ k.toNat = 255) := by
  rw [decode_eq_ok_iff, and_maskFreeA_iff, ← rksel_legal_iff]
  simp only [Encodes]
  tauto

/-- EXPAND, by its match and mask; KLEN and BLEN are free (R83). -/
theorem decode_expand_iff_match (w : Word) (klen blen : Byte) :
    decode w = .ok (.expand klen blen) ↔
      w &&& 0xFF0000FF#32 = assemble 0x21#8 0#8 0#8 ∧ fieldA w = klen ∧ fieldB w = blen := by
  rw [decode_eq_ok_iff, and_maskFreeAB_iff]
  simp only [Encodes]
  tauto

/-- SELECT, by its match, its mask and the legal values of FAM (R83). -/
theorem decode_select_iff_match (w : Word) (fam : Byte) :
    decode w = .ok (.select fam) ↔
      w &&& 0xFFFF00FF#32 = assemble 0x30#8 0#8 0#8 ∧ fieldA w = fam ∧ fam.toNat ≤ 3 := by
  rw [decode_eq_ok_iff, and_maskFreeA_iff]
  simp only [Encodes, BitVec.le_def, BitVec.reduceToNat]
  tauto

/-- Settles O4: each match is the assembled word of the opcode, and each mask compares the fields that are not free. -/
theorem decodeFollowsMatchAndMask : Obligations.DecodeFollowsMatchAndMask := by
  intro w
  have plain : ∀ i op, (∀ w, Encodes w i ↔ fieldZ w = 0#8 ∧ fieldOp w = op ∧ fieldA w = 0#8 ∧ fieldB w = 0#8) →
      (decode w = .ok i ↔ w &&& 0xFFFFFFFF#32 = assemble op 0#8 0#8) :=
    fun i op hi => by rw [decode_eq_ok_iff, hi, and_maskPlain_iff]
  exact ⟨plain .sub 0x01#8 fun _ => Iff.rfl, plain .invsub 0x02#8 fun _ => Iff.rfl, decode_ark_iff_match w,
    plain .shr 0x11#8 fun _ => Iff.rfl, plain .invshr 0x12#8 fun _ => Iff.rfl, plain .mix 0x13#8 fun _ => Iff.rfl,
    plain .invmix 0x14#8 fun _ => Iff.rfl, decode_expand_iff_match w, decode_select_iff_match w⟩

/-! ### Illegal words -/

/-- A word is legal exactly when its field Z is 0 and its other fields are those of one of the commands (R84). -/
theorem exists_decode_iff (w : Word) :
    (∃ i, decode w = .ok i) ↔
      fieldZ w = 0#8 ∧
        ((fieldOp w ∈ [0x01#8, 0x02#8, 0x11#8, 0x12#8, 0x13#8, 0x14#8] ∧ fieldA w = 0#8 ∧ fieldB w = 0#8) ∨
         (fieldOp w = 0x03#8 ∧ fieldB w = 0#8 ∧ (fieldA w ≤ 0x0A#8 ∨ fieldA w = 0xFF#8)) ∨
         fieldOp w = 0x21#8 ∨
         (fieldOp w = 0x30#8 ∧ fieldB w = 0#8 ∧ fieldA w ≤ 0x03#8)) := by
  simp only [decode_eq_ok_iff]
  constructor
  · rintro ⟨i, hz, hfields⟩
    refine ⟨hz, ?_⟩
    cases i with
    | ark k =>
      obtain ⟨hop, rfl, hb, hk⟩ := hfields
      exact .inr (.inl ⟨hop, hb, hk⟩)
    | expand klen blen => exact .inr (.inr (.inl hfields.1))
    | select k =>
      obtain ⟨hop, rfl, hb, hk⟩ := hfields
      exact .inr (.inr (.inr ⟨hop, hb, hk⟩))
    | sub | invsub | shr | invshr | mix | invmix =>
      obtain ⟨hop, hab⟩ := hfields
      exact .inl ⟨by simp [hop], hab⟩
  · rintro ⟨hz, ⟨hop, hab⟩ | ⟨hop, hb, hk⟩ | hop | ⟨hop, hb, hk⟩⟩
    · simp only [List.mem_cons, List.not_mem_nil, or_false] at hop
      obtain hop | hop | hop | hop | hop | hop := hop
      · exact ⟨.sub, hz, hop, hab⟩
      · exact ⟨.invsub, hz, hop, hab⟩
      · exact ⟨.shr, hz, hop, hab⟩
      · exact ⟨.invshr, hz, hop, hab⟩
      · exact ⟨.mix, hz, hop, hab⟩
      · exact ⟨.invmix, hz, hop, hab⟩
    · exact ⟨.ark (fieldA w), hz, hop, rfl, hb, hk⟩
    · exact ⟨.expand (fieldA w) (fieldB w), hz, hop, rfl, rfl⟩
    · exact ⟨.select (fieldA w), hz, hop, rfl, hb, hk⟩

end Sys2Proof

namespace Sys2Proof.Machine

/-- A word that is no command raises IllegalCommand (R85, R203). -/
theorem execute_of_illegal {w : Word} (h : ∀ i, decode w ≠ .ok i) (s : State) :
    execute w s = .next (raiseError .illegalCommand s) := by
  unfold execute
  cases hdec : decode w with
  | error r => rfl
  | ok i => exact absurd hdec (h i)

/-- Settles O5: the listed words are those that `exists_decode_iff` leaves out, A being at most 0xFF. -/
theorem illegalWordsOnlySetErr : Obligations.IllegalWordsOnlySetErr := by
  refine ⟨fun w => ?listed, ?zero, fun w s h => ⟨execute_of_illegal h s, rfl⟩⟩
  case listed =>
    have hA := (w.extractLsb' 8 8).isLt
    simp only [ne_eq, ← not_exists, exists_decode_iff, fieldOp, fieldA, fieldB, fieldZ, List.mem_cons, List.not_mem_nil,
      or_false, BitVec.le_def, BitVec.toNat_eq, BitVec.reduceToNat]
    omega
  case zero =>
    have hdec : decode 0x00000000#32 = .error .unassignedOpcode := rfl
    simp [hdec]

/-- The values of RKSEL that select no round key (R85). -/
theorem roundKeyOperand_of_illegal {k : Byte} (h : wellFormed (.ark k) = false) (s : State) :
    roundKeyOperand k s = none := by
  have hk : ¬ (k.toNat ≤ 10 ∨ k.toNat = 255) := by simpa [wellFormed] using h
  rw [roundKeyOperand, if_neg (fun hff => hk (.inr (by simp [hff]))), dif_neg (by omega)]

/-- The values of FAM that name no family (R85). -/
theorem selectedFamilies_of_illegal {fam : Byte} (h : wellFormed (.select fam) = false) : selectedFamilies fam = none := by
  have hfam : 3 < fam.toNat := by simpa [wellFormed] using h
  have hne : fam ≠ 0#8 ∧ fam ≠ 1#8 ∧ fam ≠ 2#8 ∧ fam ≠ 3#8 := by
    refine ⟨?_, ?_, ?_, ?_⟩ <;> rintro rfl <;> simp at hfam
  simp [selectedFamilies, hne]

/-- Settles O24: only ARK and SELECT have illegal operands, and both look at theirs before any bind. -/
theorem illegalOperandFieldsSetErr : Obligations.IllegalOperandFieldsSetErr := by
  intro i s hwf
  cases i with
  | ark k => simp only [exec, execArk, roundKeyOperand_of_illegal hwf]; rfl
  | select fam => simp only [exec, execSelect, selectedFamilies_of_illegal hwf]; rfl
  | sub | invsub | shr | invshr | mix | invmix | expand klen blen => cases hwf

end Sys2Proof.Machine

/-!
The dispatcher (40_dispatcher.md): what binds, what a bind, a command and a step do to the bindings, SELECT, the error a
command ends with, and ARK. A step that is no reset gives a family a binding only by the probe (`step_bindings`), a SELECT
is its list of families (`exists_selectedFamilies`), and a family's command ends with its own size error or none
(`exec_err_of_available`).
-/

namespace Sys2Proof.Machine

/-! ### What a step does to the bindings -/

/-- From `s` to `t` every binding stays, and a new one is the probe's choice in `s` (R102, R103). -/
def BindingsGrow (s t : State) : Prop :=
  ∀ f v, (bindingOf s.bindings f = some v → bindingOf t.bindings f = some v) ∧
    (bindingOf s.bindings f = none → bindingOf t.bindings f = some v →
      chooseVariant (capTiers s) s.overrideTier = some v)

theorem BindingsGrow.of_eq {s t : State} (h : t.bindings = s.bindings) : BindingsGrow s t := by
  rw [BindingsGrow, h]
  exact (BindExtends.refl s).2

theorem exec_bindings {i : Instr} {s t : State} (h : exec i s = .next t) : BindingsGrow s t := by
  obtain ⟨b, ⟨-, hgrow⟩, ⟨e, -, rfl⟩ | ⟨-, rfl⟩ | ⟨-, g, w, rfl, -⟩ | ⟨-, rfl⟩⟩ := exec_cases h
  · exact hgrow
  · exact hgrow
  · simpa [BindingsGrow] using hgrow
  · simpa [BindingsGrow] using hgrow

theorem execute_bindings {w : Word} {s t : State} (h : execute w s = .next t) : BindingsGrow s t := by
  obtain ⟨r, -, rfl⟩ | ⟨i, -, hexec⟩ := execute_cases h
  · exact .of_eq rfl
  · exact exec_bindings hexec

/-- Everything a step can do to the bindings: it is a reset, or every binding stays and a new one is the probe's choice. -/
theorem step_bindings {s t : State} (h : step s = .next t) :
    (∃ rest, s.port = .reset :: rest ∧ t = resetEvent (takeAccess rest s)) ∨ BindingsGrow s t := by
  obtain hreset | ⟨w, rest, -, hw⟩ | hkeep := step_control h
  · exact .inl hreset
  · have hgrow := execute_bindings hw
    exact .inr hgrow
  · exact .inr (.of_eq hkeep.bindings)

/-- Settles O19: a binding that was there names a present variant, a new one is the probe's choice, and reset leaves none. -/
theorem boundVariantsStayPresent : Obligations.BoundVariantsStayPresent := by
  intro s t hinv hstep f v hv
  have hcap : capTiers t = capTiers s := (capIsConstant s t hstep).1
  rw [hcap]
  obtain ⟨rest, -, rfl⟩ | hgrow := step_bindings hstep
  · have hnone : bindingOf (resetEvent (takeAccess rest s)).bindings f = none := bindingOf_resetWith s.vecTiers f
    rw [hnone] at hv
    cases hv
  · cases hs : bindingOf s.bindings f with
    | none => exact chooseVariant_present _ _ (capTiers_bit0 s) v ((hgrow f v).2 hs hv)
    | some w =>
      have hw : some v = some w := hv.symm.trans ((hgrow f w).1 hs)
      cases hw
      exact hinv f v hs

/-! ### The probe -/

/-- The automatic choice is present: Scalar always is (R24, R102). -/
theorem highestTier_present {tiers : BitVec 4} (h : tiers.getLsbD 0 = true) :
    tiers.getLsbD (variantBits (highestTier tiers)).toNat = true :=
  chooseVariant_present tiers 0#3 h _ rfl

/-- No present variant is above the automatic choice (R102). -/
theorem le_highestTier {tiers : BitVec 4} {w : Variant} (h : tiers.getLsbD (variantBits w).toNat = true) :
    (variantBits w).toNat ≤ (variantBits (highestTier tiers)).toNat := by
  revert tiers
  cases w <;> decide

/-- OVERRIDE.TIER = V + 1 forces the variant of code V (R25, R102). -/
theorem chooseVariant_forced (tiers : BitVec 4) {t : BitVec 3} {v : Variant} (h : t.toNat = (variantBits v).toNat + 1) :
    chooseVariant tiers t = if tiers.getLsbD (variantBits v).toNat then some v else none := by
  rw [chooseVariant, h]
  cases v <;> rfl

/-- OVERRIDE.TIER above 4 names no tier (R25, R102). -/
theorem chooseVariant_nonexistent (tiers : BitVec 4) {t : BitVec 3} (h : 5 ≤ t.toNat) : chooseVariant tiers t = none := by
  obtain ⟨n, hn⟩ := Nat.exists_eq_add_of_le' h
  rw [chooseVariant, hn]
  rfl

theorem bindFamily_of_bound {f : Family} {s : State} {v : Variant} (h : bindingOf s.bindings f = some v) :
    bindFamily f s = some s := by
  simp only [bindFamily, h]

/-- An unbound family fails to bind where the probe has no answer (R102). -/
theorem bindFamily_of_unchosen {f : Family} {s : State} (h : bindingOf s.bindings f = none)
    (hc : chooseVariant (capTiers s) s.overrideTier = none) : bindFamily f s = none := by
  rw [bindFamily_of_unbound h, hc, Option.map_none]

/-- Settles O15: for an unbound family each clause is the probe's answer under that OVERRIDE.TIER. -/
theorem bindFollowsOverrideAndTiers : Obligations.BindFollowsOverrideAndTiers := by
  intro f s
  refine ⟨fun v => bindFamily_of_bound, fun hn ho => ?automatic, fun v hn ho hp => ?forced, fun v hn ho hp => ?absent,
    fun hn ho => ?nonexistent, fun t ht => ⟨(bindFamily_extends ht).1, (bindFamily_bindsOnly ht).2⟩⟩
  case automatic =>
    have hchoice : chooseVariant (capTiers s) s.overrideTier = some (highestTier (capTiers s)) := by rw [ho]; rfl
    obtain ⟨t, hbind, hbound⟩ := bindFamily_of_chosen hn hchoice
    exact ⟨_, t, hbind, hbound, highestTier_present (capTiers_bit0 s), fun w => le_highestTier⟩
  case forced => exact bindFamily_of_chosen hn (by rw [chooseVariant_forced _ ho, if_pos hp])
  case absent => exact bindFamily_of_unchosen hn (by simp [chooseVariant_forced _ ho, hp])
  case nonexistent => exact bindFamily_of_unchosen hn (chooseVariant_nonexistent _ ho)

/-! ### The error a family's command ends with -/

/-- The error of `Perform`, with `ok` where it raises none (R105). -/
def raisedBy (r : Except ErrCode State) : ErrCode :=
  match r with
  | .error e => e
  | .ok _ => .ok

/-- The error a command's `Perform` raises: EXPAND its size error, the others none (R205, R206). -/
def performError (i : Instr) : ErrCode :=
  match i with
  | .expand klen blen => (expandSizeError klen blen).getD .ok
  | _ => .ok

theorem raisedBy_performExpand (klen blen : Byte) (s : State) :
    raisedBy (performExpand klen blen s) = (expandSizeError klen blen).getD .ok := by
  unfold performExpand
  cases expandSizeError klen blen <;> rfl

/-- The size errors in their order (R208). -/
theorem performError_expand (klen blen : Byte) :
    performError (.expand klen blen) =
      if klen ≠ 16#8 then .invalidKeySize else if blen ≠ 176#8 then .invalidExpandedKeyBufferSize else .ok := by
  simp only [performError, expandSizeError]
  split_ifs <;> rfl

theorem performError_of_not_expand {i : Instr} (h : ∀ klen blen, i ≠ .expand klen blen) : performError i = .ok := by
  cases i with
  | expand klen blen => exact absurd rfl (h klen blen)
  | sub | invsub | ark | shr | invshr | mix | invmix | select => rfl

/-- `Perform` raises only size errors (R205, R206). -/
theorem performError_ne_unsupported (i : Instr) : performError i ≠ .unsupportedVariant := by
  cases i with
  | expand klen blen => rw [performError_expand]; split_ifs <;> decide
  | sub | invsub | ark | shr | invshr | mix | invmix | select => exact nofun

/-- The command cycle of an available family ends with the error `perform` raises (R105). -/
theorem familyCommand_err {f : Family} {p : State → Except ErrCode State} {e : ErrCode} {s t : State}
    (hp : ∀ u, raisedBy (p u) = e) (ha : familyAvailable f s = true) (h : familyCommand f p s = .next t) : t.err = e := by
  obtain ⟨hun, -⟩ | ⟨s1, -, ⟨e', he, rfl⟩ | ⟨s2, hok, rfl⟩⟩ := familyCommand_next h
  · simp [ha] at hun
  · rw [← hp s1, he]; rfl
  · rw [← hp s1, hok]; rfl

/-- A legal command of an available family ends with the error its `Perform` raises (R105, R201). -/
theorem exec_err_of_available {i : Instr} {f : Family} {s t : State} (hwf : wellFormed i = true)
    (hf : commandFamily i = some f) (ha : familyAvailable f s = true) (h : exec i s = .next t) :
    t.err = performError i := by
  cases i with
  | select fam => cases hf
  | ark k =>
    obtain ⟨key, w, hk⟩ := roundKeyOperand_isSome hwf s
    rw [exec_ark hk] at h
    cases hf
    exact familyCommand_err (fun _ => rfl) ha h
  | expand klen blen => cases hf; exact familyCommand_err (raisedBy_performExpand klen blen) ha h
  | sub | invsub | shr | invshr | mix | invmix =>
    cases hf
    exact familyCommand_err (p := performOnState _) (fun _ => rfl) ha h

theorem familyAvailable_of_bound {f : Family} {s : State} {v : Variant} (h : bindingOf s.bindings f = some v) :
    familyAvailable f s = true := by
  simp [familyAvailable, h]

/-- Settles O18: a step other than reset only adds bindings, and the errors of an available family's command are
IllegalCommand and the size errors. -/
theorem bindingLastsUntilReset : Obligations.BindingLastsUntilReset := by
  refine ⟨fun s t f v hstep hreset hv => ?lasts, fun i f v s t hf hv hexec => ?noError⟩
  case lasts =>
    obtain ⟨rest, hp, -⟩ | hgrow := step_bindings hstep
    · exact absurd hp (hreset rest)
    · exact (hgrow f v).1 hv
  case noError =>
    cases hwf : wellFormed i with
    | false =>
      rw [illegalOperandFieldsSetErr i s hwf] at hexec
      cases hexec
      exact nofun
    | true =>
      rw [exec_err_of_available hwf hf (familyAvailable_of_bound hv) hexec]
      exact performError_ne_unsupported i

/-- Settles O23: such a command is its family's command cycle, which stops at the failed bind. -/
theorem unavailableFamilyRunsNothing : Obligations.UnavailableFamilyRunsNothing :=
  fun _ _ _ hwf hf h => exec_of_unavailable hwf hf h

/-- Settles O48: whatever decodes is well-formed, so ERR is UnsupportedVariant or what `Perform` raises. -/
theorem errorPriority : Obligations.ErrorPriority := by
  intro w s t h
  have hlegal : ∀ i, decode w = .ok i → wellFormed i = true ∧ exec i s = .next t := fun i hdec =>
    ⟨(everyLegalWordIsAnEncoding w i hdec).1, by rwa [execute_of_decode hdec] at h⟩
  refine ⟨fun hill => ?illegal, fun i f hdec hf ha => ?unavailable, fun klen blen hdec ha => ?size,
    fun i f hdec hf ha hne => ?none⟩
  case illegal =>
    rw [execute_of_illegal hill] at h
    cases h
    rfl
  case unavailable =>
    obtain ⟨hwf, hexec⟩ := hlegal i hdec
    rw [exec_of_unavailable hwf hf ha] at hexec
    cases hexec
    rfl
  case size =>
    obtain ⟨hwf, hexec⟩ := hlegal _ hdec
    rw [exec_err_of_available hwf rfl ha hexec, performError_expand]
  case none =>
    obtain ⟨hwf, hexec⟩ := hlegal i hdec
    rw [exec_err_of_available hwf hf ha hexec, performError_of_not_expand hne]

/-! ### SELECT -/

/-- A legal FAM selects the list of the families it names (R106). -/
theorem exists_selectedFamilies {fam : Byte} (h : fam.toNat ≤ 3) :
    ∃ fs, selectedFamilies fam = some fs ∧ ∀ f, f ∈ fs ↔ famNames fam f = true := by
  have hfam : fam = 0#8 ∨ fam = 1#8 ∨ fam = 2#8 ∨ fam = 3#8 := by bv_omega
  rcases hfam with rfl | rfl | rfl | rfl <;> exact ⟨_, rfl, fun f => by cases f <;> decide⟩

/-- Where the probe has no answer, SELECT's binds change nothing (R102). -/
theorem bindEach_of_unchosen (fs : List Family) {s : State} (h : chooseVariant (capTiers s) s.overrideTier = none) :
    (bindEach fs s).1 = s := by
  have hb : (bindEach fs s).1.bindings = s.bindings :=
    bindings_ext fun f => by rw [bindEach_binding, h, Option.or_none, ite_self]
  rw [(bindEach_extends fs s).1, hb]

/-- A family is unavailable exactly when it is unbound and the probe has no answer (R102). -/
theorem familyAvailable_eq_false {f : Family} {s : State} : familyAvailable f s = false ↔
    bindingOf s.bindings f = none ∧ chooseVariant (capTiers s) s.overrideTier = none := by
  simp [familyAvailable, ← chooseVariant_isSome]

/-- SELECT's binds leave an available family that is named bound as `Bind` binds it (R102, R106). -/
theorem bindEach_boundIn {fs : List Family} {f : Family} {s : State} (hf : f ∈ fs) (ha : familyAvailable f s = true) :
    BoundIn f s (bindEach fs s).1 := by
  have hb : bindingOf (bindEach fs s).1.bindings f =
      (bindingOf s.bindings f).or (chooseVariant (capTiers s) s.overrideTier) := by rw [bindEach_binding, if_pos hf]
  refine ⟨fun v hv => by rw [hb, hv, Option.some_or], fun hn => ?_⟩
  have hsel : tierSelectable (capTiers s) s.overrideTier = true := by simpa [familyAvailable, hn] using ha
  rw [hb, hn, Option.none_or, chooseVariant_isSome]
  exact ⟨rfl, hsel⟩

/-- Settles O21: every bind of the list is Ok. -/
theorem selectBindsNamedFamilies : Obligations.SelectBindsNamedFamilies := by
  intro fam s hfam ha
  obtain ⟨fs, hfs, hmem⟩ := exists_selectedFamilies hfam
  have hok : (bindEach fs s).2 = true := by
    rw [bindEach_ok, List.all_eq_true]
    exact fun f hf => ha f ((hmem f).1 hf)
  refine ⟨completeCommand (bindEach fs s).1, by rw [exec_select s hfs, finishSelect, if_pos hok], ?frame,
    fun f => ⟨fun hn => bindEach_boundIn ((hmem f).2 hn) (ha f hn), fun hn => ?unnamed⟩⟩
  case frame =>
    rw [(bindEach_extends fs s).1]
    rfl
  case unnamed =>
    have hf : f ∉ fs := by simp [hmem, hn]
    rw [completeCommand_bindings, bindEach_binding, if_neg hf]

/-- Settles O22: OVERRIDE lets no unbound family bind, so the other families named are bound already or fail too. -/
theorem selectOfUnavailableFamilyFails : Obligations.SelectOfUnavailableFamilyFails := by
  intro fam s f hfam hn hun
  obtain ⟨fs, hfs, hmem⟩ := exists_selectedFamilies hfam
  have hfail : (bindEach fs s).2 = false := by
    rw [bindEach_ok, List.all_eq_false]
    exact ⟨f, (hmem f).2 hn, by simp [hun]⟩
  have hsame : (bindEach fs s).1 = s := bindEach_of_unchosen fs (familyAvailable_eq_false.1 hun).2
  rw [exec_select s hfs, finishSelect, hfail, hsame]
  rfl

/-! ### ARK -/

/-- RKSEL 0 to 10 selects that round key of EK (R125). -/
theorem roundKeyOperand_index (k : Fin 11) (s : State) :
    roundKeyOperand (BitVec.ofNat 8 k.val) s = some (s.ekReg.roundKey k, s.ekv) := by
  have hval : (BitVec.ofNat 8 k.val).toNat = k.val := by simp; omega
  have hff : BitVec.ofNat 8 k.val ≠ 0xFF#8 := fun h => by simp [h] at hval; omega
  simp only [roundKeyOperand, if_neg hff, hval, k.isLt, dif_pos, Fin.eta]

/-- RKSEL 0xFF selects RKEY (R125). -/
theorem roundKeyOperand_rkey (s : State) : roundKeyOperand 0xFF#8 s = some (s.rkeyReg.bytes, isWritten s.rkeyReg) := rfl

/-- R12, R125: ⊕ goes byte by byte. -/
@[simp] theorem byte_xorBlock (a b : Block) (i : Fin 16) :
    Block.byte (xorBlock a b) i = Block.byte a i ^^^ Block.byte b i := by
  simp [Block.byte, xorBlock]

/-- ARK with a legal selector, its family available: its result and its frame (R15, R105, R125). -/
theorem exec_ark_spec {k : Byte} {s : State} {key : Block} {w : Bool} (hk : roundKeyOperand k s = some (key, w))
    (h : familyAvailable .confusion s = true) :
    ∃ t, exec (.ark k) s = .next t ∧ StateCommandFrame .confusion s t ∧ RecordsRead (isWritten s.stateReg && w) s t ∧
      ∀ i, t.stateReg.bytes.byte i = s.stateReg.bytes.byte i ^^^ key.byte i := by
  obtain ⟨s1, hbind, hnext⟩ := performArk_next (key := key) (w := w) h
  exact ⟨_, (exec_ark hk).trans hnext, writeStateReg_frame _ _ hbind, writeStateReg_recordsRead _ _ hbind,
    byte_xorBlock s.stateReg.bytes key⟩

/-- Settles O27: bytes `16k` to `16k + 15` of EK are round key `k`. -/
theorem arkXorsExpandedRoundKey : Obligations.ArkXorsExpandedRoundKey := by
  intro k s h
  obtain ⟨t, hnext, hframe, hread, hbytes⟩ := exec_ark_spec (roundKeyOperand_index k s) h
  exact ⟨t, hnext, hframe, hread, fun i => by rw [hbytes, ExpandedKey.byte_eq]⟩

/-- Settles O28: RKSEL = 0xFF selects RKEY. -/
theorem arkXorsRkey : Obligations.ArkXorsRkey :=
  fun s h => exec_ark_spec (roundKeyOperand_rkey s) h

end Sys2Proof.Machine

/-!
The laws of the confusion unit (41_confusion.md R122, R126, R127): the two substitution tables are inverse to each other, two
commands in a row undo each other, and no byte of STATE or of a round key reaches another byte.
-/

namespace Sys2Proof

/-- Blocks with the same sixteen bytes are equal (R14). -/
theorem Block.ext_byte {a b : Block} (h : ∀ i : Fin 16, Block.byte a i = Block.byte b i) : a = b := by
  refine Quad.ext_get fun c => Quad.ext_get fun r => ?_
  rw [← Block.byte_eq a r c (by omega), ← Block.byte_eq b r c (by omega)]
  exact h _

end Sys2Proof

namespace Sys2Proof.Machine

/-! ### The substitution tables -/

theorem invSbox_sbox : Function.LeftInverse invSbox sbox := by
  unfold Function.LeftInverse
  decide

theorem sbox_invSbox : Function.LeftInverse sbox invSbox := by
  unfold Function.LeftInverse
  decide

theorem sbox_ne_self : ∀ b, sbox b ≠ b := by decide

/-- Settles O29: the three table laws. -/
theorem substitutionTablesAreInverse : Obligations.SubstitutionTablesAreInverse :=
  fun b => ⟨invSbox_sbox b, sbox_invSbox b, sbox_ne_self b⟩

/-- Inverse byte functions give inverse functions of a Block, since no byte moves (R127). -/
theorem mapBytes_leftInverse {f g : Byte → Byte} (h : Function.LeftInverse f g) :
    Function.LeftInverse (mapBytes f) (mapBytes g) :=
  fun b => Block.ext_byte fun i => by rw [byte_mapBytes, byte_mapBytes, h]

/-! ### Two commands in a row -/

/-- A family that a command has bound is available to the next one (R103). -/
theorem BoundIn.available {f : Family} {s t : State} (h : BoundIn f s t) : familyAvailable f t = true := by
  obtain ⟨hkeep, hnew⟩ := h
  cases hs : bindingOf s.bindings f with
  | none => rw [familyAvailable, (hnew hs).2, Bool.true_or]
  | some v => exact familyAvailable_of_bound (hkeep v hs)

/-- A command that writes STATE leaves its family available. -/
theorem StateCommandFrame.available {f : Family} {s t : State} (h : StateCommandFrame f s t) :
    familyAvailable f t = true := by
  obtain ⟨-, -, -, -, ⟨hbound, -⟩, -⟩ := h
  exact hbound.available

/-- A command that writes STATE leaves every round key as it was (R28, R31). -/
theorem StateCommandFrame.roundKeyOperand_eq {f : Family} {s t : State} (h : StateCommandFrame f s t) (k : Byte) :
    roundKeyOperand k t = roundKeyOperand k s := by
  obtain ⟨-, -, hekv, hek, -, -, -, hrkey, -⟩ := h
  simp only [roundKeyOperand, hekv, hek, hrkey]

/-- Of two commands of one family that replace STATE by a function of STATE, the second undoes the first where its function
undoes the other's (R15). -/
theorem performOnState_undo {f : Family} {s : State} {g g' : Block → Block} (hinv : Function.LeftInverse g' g)
    (h : familyAvailable f s = true) :
    ∃ t u, familyCommand f (performOnState g) s = .next t ∧ familyCommand f (performOnState g') t = .next u ∧
      u.stateReg.bytes = s.stateReg.bytes := by
  obtain ⟨t, hst, hframe, -, hbytes⟩ := performOnState_spec g h
  obtain ⟨u, htu, -, -, hbytes'⟩ := performOnState_spec g' hframe.available
  exact ⟨t, u, hst, htu, by rw [hbytes', hbytes, hinv]⟩

/-- Settles O31: the tables are inverse to each other, so the functions of STATE are. -/
theorem subAndInvsubUndoEachOther : Obligations.SubAndInvsubUndoEachOther :=
  fun _ h => ⟨performOnState_undo (mapBytes_leftInverse invSbox_sbox) h,
    performOnState_undo (mapBytes_leftInverse sbox_invSbox) h⟩

/-- Settles O30: the second ARK finds the same round key, and ⊕ with it twice cancels. -/
theorem arkTwiceRestoresState : Obligations.ArkTwiceRestoresState := by
  intro k s hwf h
  obtain ⟨key, w, hk⟩ := roundKeyOperand_isSome hwf s
  obtain ⟨t, hst, hframe, -, hbytes⟩ := exec_ark_spec hk h
  obtain ⟨u, htu, -, -, hbytes'⟩ := exec_ark_spec ((hframe.roundKeyOperand_eq k).trans hk) hframe.available
  refine ⟨t, u, hst, htu, Block.ext_byte fun i => ?_⟩
  rw [hbytes', hbytes, BitVec.xor_assoc, BitVec.xor_self, BitVec.xor_zero]

/-! ### Each byte on its own -/

/-- STATE after a command that replaces it by `g` of itself (R15). -/
theorem performOnState_bytes {f : Family} {g : Block → Block} {s t : State} (h : familyAvailable f s = true)
    (hst : familyCommand f (performOnState g) s = .next t) : t.stateReg.bytes = g s.stateReg.bytes := by
  obtain ⟨t', hst', -, -, hbytes⟩ := performOnState_spec g h
  cases hst.symm.trans hst'
  exact hbytes

/-- A byte of STATE after ARK is that byte before ⊕ that byte of the round key (R125). -/
theorem exec_ark_byte {k : Byte} {s t : State} {key : Block} {w : Bool} (hk : roundKeyOperand k s = some (key, w))
    (h : familyAvailable .confusion s = true) (hst : exec (.ark k) s = .next t) (i : Fin 16) :
    t.stateReg.bytes.byte i = s.stateReg.bytes.byte i ^^^ key.byte i := by
  obtain ⟨t', hst', -, -, hbytes⟩ := exec_ark_spec hk h
  cases hst.symm.trans hst'
  exact hbytes i

/-- Two runs of a bytewise command agree in byte `i` where their STATEs did. -/
theorem performOnState_mapBytes_congr {f : Family} {g : Byte → Byte} {s s' t t' : State} {i : Fin 16}
    (h : familyAvailable f s = true) (h' : familyAvailable f s' = true)
    (hst : familyCommand f (performOnState (mapBytes g)) s = .next t)
    (hst' : familyCommand f (performOnState (mapBytes g)) s' = .next t')
    (hi : s.stateReg.bytes.byte i = s'.stateReg.bytes.byte i) : t.stateReg.bytes.byte i = t'.stateReg.bytes.byte i := by
  rw [performOnState_bytes h hst, performOnState_bytes h' hst', byte_mapBytes, byte_mapBytes, hi]

/-- A legal RKSEL is 0xFF or an index 0 to 10 (R83, R125). -/
theorem rksel_cases {k : Byte} (h : wellFormed (.ark k) = true) : k = 0xFF#8 ∨ ∃ j : Fin 11, k = BitVec.ofNat 8 j.val := by
  obtain hle | rfl := (wellFormed_ark k).1 h
  · exact .inr ⟨⟨k.toNat, by bv_omega⟩, by simp⟩
  · exact .inl rfl

/-- Settles O32: SUB and INVSUB by their tables, ARK by the byte of the round key it selects. -/
theorem confusionActsBytewise : Obligations.ConfusionActsBytewise := by
  intro c s s' t t' i hfam hwf h h' hst hst' hi hrkey hek
  cases c with
  | sub => exact performOnState_mapBytes_congr h h' hst hst' hi
  | invsub => exact performOnState_mapBytes_congr h h' hst hst' hi
  | ark k =>
    obtain rfl | ⟨j, rfl⟩ := rksel_cases hwf
    · rw [exec_ark_byte (roundKeyOperand_rkey s) h hst, exec_ark_byte (roundKeyOperand_rkey s') h' hst', hi, hrkey rfl]
    · have hkey := hek j rfl
      rw [ExpandedKey.byte_eq, ExpandedKey.byte_eq] at hkey
      rw [exec_ark_byte (roundKeyOperand_index j s) h hst, exec_ark_byte (roundKeyOperand_index j s') h' hst', hi, hkey]
  | shr | invshr | mix | invmix | expand | select => cases hfam

end Sys2Proof.Machine

/-!
The laws of the diffusion unit (42_diffusion.md R140 to R148) and the round constants (43_key_schedule.md R160). The product
is a sum of doublings, so every additive function that commutes with doubling commutes with it (`gmul_map`); from this come
commutativity and associativity. MIX and INVMIX are products with a matrix (`mulColumn`), and the two matrices are inverse.
-/

namespace Sys2Proof.Machine

/-! ### The field product -/

/-- One round of R141 as a sum: the bit of `c` selects `p` or 0. -/
theorem gmulLoop_succ (c : Byte) (n : Nat) (acc p : Byte) :
    gmulLoop c (n + 1) acc p = gmulLoop c n (acc ^^^ if c.getLsbD (7 - n) then p else 0#8) (xtime p) := by
  rw [gmulLoop]
  split
  · rfl
  · rw [BitVec.xor_zero]

/-- An additive function that commutes with doubling commutes with the loop of R141. -/
theorem gmulLoop_map {f : Byte → Byte} (hadd : ∀ a b, f (a ^^^ b) = f a ^^^ f b) (hdouble : ∀ b, f (xtime b) = xtime (f b))
    (c : Byte) (n : Nat) (acc p : Byte) : f (gmulLoop c n acc p) = gmulLoop c n (f acc) (f p) := by
  induction n generalizing acc p with
  | zero => rfl
  | succ n ih =>
    rw [gmulLoop, gmulLoop, ih, hdouble]
    split
    · rw [hadd]
    · rfl

/-- An additive function that commutes with doubling commutes with the product by a constant. -/
theorem gmul_map {f : Byte → Byte} (hadd : ∀ a b, f (a ^^^ b) = f a ^^^ f b) (hdouble : ∀ b, f (xtime b) = xtime (f b))
    (c b : Byte) : f (gmul c b) = gmul c (f b) := by
  have hzero : f 0#8 = 0#8 := by simpa using hadd 0#8 0#8
  rw [gmul, gmul, gmulLoop_map hadd hdouble, hzero]

/-- R142: distributivity over ⊕ in the second factor. -/
theorem gmul_xor (c a b : Byte) : gmul c (a ^^^ b) = gmul c a ^^^ gmul c b := gmulLoop_xor c 8 0#8 0#8 a b

theorem gmul_xtime (c b : Byte) : gmul c (xtime b) = xtime (gmul c b) := (gmul_map xtime_xor (fun _ => rfl) c b).symm

theorem gmul_left_comm (a b c : Byte) : gmul a (gmul b c) = gmul b (gmul a c) := gmul_map (gmul_xor a) (gmul_xtime a) b c

@[simp] theorem gmul_one (c : Byte) : gmul c 1#8 = c := by
  revert c; decide

/-- R142: `b` is `b · 1`, and products by constants commute. -/
theorem gmul_comm (a b : Byte) : gmul a b = gmul b a := by
  have h := gmul_left_comm a b 1#8
  rwa [gmul_one, gmul_one] at h

@[simp] theorem one_gmul (b : Byte) : gmul 1#8 b = b := by rw [gmul_comm, gmul_one]

@[simp] theorem gmul_zero (c : Byte) : gmul c 0#8 = 0#8 := by simpa using gmul_xor c 0#8 0#8

@[simp] theorem zero_gmul (b : Byte) : gmul 0#8 b = 0#8 := by rw [gmul_comm, gmul_zero]

/-- R142: distributivity over ⊕ in the first factor. -/
theorem xor_gmul (c d b : Byte) : gmul (c ^^^ d) b = gmul c b ^^^ gmul d b := by
  rw [gmul_comm, gmul_xor, gmul_comm b c, gmul_comm b d]

theorem gmul_assoc (a b c : Byte) : gmul (gmul a b) c = gmul a (gmul b c) := by
  rw [gmul_comm, gmul_left_comm, gmul_comm c b]

/-- Settles O38, from the laws above. -/
theorem fieldLaws : Obligations.FieldLaws := ⟨gmul_zero, gmul_comm, gmul_xor, xor_gmul⟩

/-- `2 · b` is one doubling (R141). -/
theorem two_gmul (b : Byte) : gmul 2#8 b = xtime b := by
  rw [show 2#8 = xtime 1#8 by decide, gmul_comm, gmul_xtime, gmul_one]

/-- `xtime c · b` is the double of `c · b`. -/
theorem xtime_gmul (c b : Byte) : gmul (xtime c) b = xtime (gmul c b) := by
  rw [gmul_comm, gmul_xtime, gmul_comm]

theorem four_gmul (b : Byte) : gmul 4#8 b = xtime (xtime b) := by
  rw [show 4#8 = xtime 2#8 by decide, xtime_gmul, two_gmul]

theorem eight_gmul (b : Byte) : gmul 8#8 b = xtime (xtime (xtime b)) := by
  rw [show 8#8 = xtime 4#8 by decide, xtime_gmul, four_gmul]

/-- Settles O37: the loop of R141 round by round; each constant is a sum of doublings of 1. -/
theorem fieldProductsExpand : Obligations.FieldProductsExpand := by
  intro b
  refine ⟨rfl, fun c => ?product, one_gmul b, two_gmul b, ?three, ?nine, ?eleven, ?thirteen, ?fourteen⟩
  case product =>
    simp only [gmul, gmulLoop_succ, BitVec.zero_xor]
    rfl
  case three => rw [show 3#8 = 2#8 ^^^ 1#8 by decide, xor_gmul, two_gmul, one_gmul]
  case nine => rw [show 9#8 = 8#8 ^^^ 1#8 by decide, xor_gmul, eight_gmul, one_gmul]
  case eleven => rw [show 11#8 = 8#8 ^^^ 2#8 ^^^ 1#8 by decide, xor_gmul, xor_gmul, eight_gmul, two_gmul, one_gmul]
  case thirteen => rw [show 13#8 = 8#8 ^^^ 4#8 ^^^ 1#8 by decide, xor_gmul, xor_gmul, eight_gmul, four_gmul, one_gmul]
  case fourteen => rw [show 14#8 = 8#8 ^^^ 4#8 ^^^ 2#8 by decide, xor_gmul, xor_gmul, eight_gmul, four_gmul, two_gmul]

/-- Settles O45: each of the ten entries by evaluation. -/
theorem roundConstantsDouble : Obligations.RoundConstantsDouble := ⟨rfl, by decide, by decide⟩

/-! ### MIX and INVMIX as matrix products -/

/-- The product of a row of coefficients with a column (R145). -/
def dotColumn (m b : Column) : Byte := gmul m.e0 b.e0 ^^^ gmul m.e1 b.e1 ^^^ gmul m.e2 b.e2 ^^^ gmul m.e3 b.e3

/-- The product of a matrix, given by its rows, with a column (R145, R146). -/
def mulColumn (m : Quad Column) (b : Column) : Column := m.map fun row => dotColumn row b

/-- The product of a row of coefficients with a matrix. -/
def mulRow (row : Column) (m : Quad Column) : Column :=
  ⟨dotColumn row (m.map Quad.e0), dotColumn row (m.map Quad.e1), dotColumn row (m.map Quad.e2), dotColumn row (m.map Quad.e3)⟩

/-- The matrix of MIX (R145). -/
def mixMatrix : Quad Column :=
  ⟨⟨2#8, 3#8, 1#8, 1#8⟩, ⟨1#8, 2#8, 3#8, 1#8⟩, ⟨1#8, 1#8, 2#8, 3#8⟩, ⟨3#8, 1#8, 1#8, 2#8⟩⟩

/-- The matrix of INVMIX (R146). -/
def invMixMatrix : Quad Column :=
  ⟨⟨14#8, 11#8, 13#8, 9#8⟩, ⟨9#8, 14#8, 11#8, 13#8⟩, ⟨13#8, 9#8, 14#8, 11#8⟩, ⟨11#8, 13#8, 9#8, 14#8⟩⟩

/-- The unit matrix. -/
def unitMatrix : Quad Column :=
  ⟨⟨1#8, 0#8, 0#8, 0#8⟩, ⟨0#8, 1#8, 0#8, 0#8⟩, ⟨0#8, 0#8, 1#8, 0#8⟩, ⟨0#8, 0#8, 0#8, 1#8⟩⟩

theorem mixColumn_eq_mulColumn (b : Column) : mixColumn b = mulColumn mixMatrix b := by
  simp [mixColumn, mulColumn, mixMatrix, dotColumn, Quad.map]

theorem invMixColumn_eq_mulColumn (b : Column) : invMixColumn b = mulColumn invMixMatrix b := rfl

theorem mulColumn_unitMatrix (b : Column) : mulColumn unitMatrix b = b := by
  simp [mulColumn, unitMatrix, dotColumn, Quad.map]

theorem dotColumn_mulColumn (row : Column) (m : Quad Column) (b : Column) :
    dotColumn row (mulColumn m b) = dotColumn (mulRow row m) b := by
  simp only [dotColumn, mulColumn, mulRow, Quad.map, gmul_xor, xor_gmul, gmul_assoc]
  ac_rfl

/-- Multiplying by two matrices in turn is multiplying by their product. -/
theorem mulColumn_mulColumn (m n : Quad Column) (b : Column) :
    mulColumn m (mulColumn n b) = mulColumn (m.map fun row => mulRow row n) b := by
  refine Quad.ext_get fun i => ?_
  simp only [mulColumn, Quad.get_map]
  exact dotColumn_mulColumn _ n b

/-- Matrices whose product is the unit matrix undo each other on columns. -/
theorem mulColumn_leftInverse {m n : Quad Column} (h : (m.map fun row => mulRow row n) = unitMatrix) :
    Function.LeftInverse (mulColumn m) (mulColumn n) :=
  fun b => by rw [mulColumn_mulColumn, h, mulColumn_unitMatrix]

theorem invMixColumn_mixColumn (b : Column) : invMixColumn (mixColumn b) = b := by
  rw [mixColumn_eq_mulColumn, invMixColumn_eq_mulColumn]
  exact mulColumn_leftInverse (by decide) b

theorem mixColumn_invMixColumn (b : Column) : mixColumn (invMixColumn b) = b := by
  rw [mixColumn_eq_mulColumn, invMixColumn_eq_mulColumn]
  exact mulColumn_leftInverse (by decide) b

/-- R147: the columns of MIX are undone one by one. -/
theorem invMixColumns_mixColumns : Function.LeftInverse invMixColumns mixColumns :=
  fun b => Quad.ext_get fun c => by simp [invMixColumns, mixColumns, invMixColumn_mixColumn]

theorem mixColumns_invMixColumns : Function.LeftInverse mixColumns invMixColumns :=
  fun b => Quad.ext_get fun c => by simp [invMixColumns, mixColumns, mixColumn_invMixColumn]

/-! ### SHR and INVSHR -/

/-- Blocks with the same matrix are equal (R14). -/
theorem ext_matrixAt {a b : Block} (h : ∀ r c, matrixAt a r c = matrixAt b r c) : a = b :=
  Quad.ext_get fun c => Quad.ext_get fun r => by rw [← matrixAt_eq_get, ← matrixAt_eq_get, h]

/-- R147: a row is rotated left and then right by its index. -/
theorem invShiftRows_shiftRows : Function.LeftInverse invShiftRows shiftRows :=
  fun b => ext_matrixAt fun r c => by rw [matrixAt_invShiftRows, matrixAt_shiftRows, sub_add_cancel]

theorem shiftRows_invShiftRows : Function.LeftInverse shiftRows invShiftRows :=
  fun b => ext_matrixAt fun r c => by rw [matrixAt_shiftRows, matrixAt_invShiftRows, add_sub_cancel_right]

/-- Rotating row `r` left by `3r` is rotating it right by `r` (R143, R144). -/
theorem shiftRows_three (b : Block) : shiftRows (shiftRows (shiftRows b)) = invShiftRows b := by
  refine ext_matrixAt fun r c => ?_
  have hcol : c + r + r + r = c - r := by omega
  simp only [matrixAt_shiftRows, matrixAt_invShiftRows, hcol]

/-! ### The statements about commands -/

/-- Settles O39: the functions of STATE undo each other. -/
theorem diffusionInverseLaws : Obligations.DiffusionInverseLaws :=
  fun _ h => ⟨performOnState_undo invShiftRows_shiftRows h, performOnState_undo shiftRows_invShiftRows h,
    performOnState_undo invMixColumns_mixColumns h, performOnState_undo mixColumns_invMixColumns h⟩

/-- Settles O40: three SHRs give what INVSHR gives, and the fourth undoes it. -/
theorem shrHasOrderFour : Obligations.ShrHasOrderFour := by
  intro s h
  obtain ⟨t1, h1, hframe1, -, hbytes1⟩ := performOnState_spec shiftRows h
  obtain ⟨t2, h2, hframe2, -, hbytes2⟩ := performOnState_spec shiftRows hframe1.available
  obtain ⟨t3, h3, hframe3, -, hbytes3⟩ := performOnState_spec shiftRows hframe2.available
  obtain ⟨t4, h4, -, -, hbytes4⟩ := performOnState_spec shiftRows hframe3.available
  obtain ⟨u, hu, -, -, hbytesu⟩ := performOnState_spec invShiftRows h
  have hthree : t3.stateReg.bytes = invShiftRows s.stateReg.bytes := by
    rw [hbytes3, hbytes2, hbytes1, shiftRows_three]
  exact ⟨t1, t2, t3, t4, u, h1, h2, h3, h4, hu, by rw [hbytes4, hthree, shiftRows_invShiftRows],
    by rw [hbytesu, hthree]⟩

/-- A function of a Block each of whose rows depends on that row alone (R148). -/
def ActsOnRows (g : Block → Block) : Prop :=
  ∀ a b r, (∀ c, matrixAt a r c = matrixAt b r c) → ∀ c, matrixAt (g a) r c = matrixAt (g b) r c

/-- A function of a Block each of whose columns depends on that column alone (R148). -/
def ActsOnColumns (g : Block → Block) : Prop :=
  ∀ a b c, (∀ r, matrixAt a r c = matrixAt b r c) → ∀ r, matrixAt (g a) r c = matrixAt (g b) r c

theorem shiftRows_actsOnRows : ActsOnRows shiftRows :=
  fun a b r h c => by rw [matrixAt_shiftRows, matrixAt_shiftRows, h]

theorem invShiftRows_actsOnRows : ActsOnRows invShiftRows :=
  fun a b r h c => by rw [matrixAt_invShiftRows, matrixAt_invShiftRows, h]

/-- A function applied to each column on its own acts on columns. -/
theorem map_actsOnColumns (f : Column → Column) : ActsOnColumns (Quad.map f) := by
  intro a b c h r
  have hcol : Quad.get a c = Quad.get b c := Quad.ext_get fun r => by rw [← matrixAt_eq_get, ← matrixAt_eq_get, h]
  rw [matrixAt_eq_get, matrixAt_eq_get, Quad.get_map, Quad.get_map, hcol]

/-- Settles O41: what a command does to STATE is a function of STATE, whatever variants are bound, and it acts on rows or on
columns. -/
theorem diffusionStaysInRowsAndColumns : Obligations.DiffusionStaysInRowsAndColumns := by
  intro i s s' t t' h h' hst hst'
  refine ⟨?rows, ?columns⟩
  case rows =>
    rintro (rfl | rfl) <;> rw [performOnState_bytes h hst, performOnState_bytes h' hst']
    · exact shiftRows_actsOnRows _ _
    · exact invShiftRows_actsOnRows _ _
  case columns =>
    rintro (rfl | rfl) <;> rw [performOnState_bytes h hst, performOnState_bytes h' hst']
    · exact map_actsOnColumns mixColumn _ _
    · exact map_actsOnColumns invMixColumn _ _

end Sys2Proof.Machine

/-!
EXPAND is all or nothing (43_key_schedule.md R163): it fails and keeps EK and EKV, or it completes and writes both.
-/

namespace Sys2Proof.Machine

/-- The two ends of EXPAND, told apart by ERR (R163). Of the four ends of a command in `exec_cases`, completing as SELECT does
and writing STATE are not EXPAND's: it is a command of the key-schedule family. -/
theorem exec_expand_cases {klen blen : Byte} {s t : State} (h : exec (.expand klen blen) s = .next t) :
    (t.err ≠ .ok ∧ t.ekReg = s.ekReg ∧ t.ekv = s.ekv) ∨
    (t.err = .ok ∧ t.ekReg = expandKey s.keyReg.bytes ∧ t.ekv = true) := by
  obtain ⟨b, -, ⟨e, he, rfl⟩ | ⟨hselect, -⟩ | ⟨hfamily, -⟩ | ⟨-, rfl⟩⟩ := exec_cases h
  · exact .inl ⟨he, rfl, rfl⟩
  · cases hselect
  · rcases hfamily with hconf | hdiff
    · cases hconf
    · cases hdiff
  · exact .inr ⟨rfl, rfl, rfl⟩

/-- Settles O44: ERR tells the two ends of EXPAND apart, and what it writes is the schedule of KEY. -/
theorem expandNeverWritesPartially : Obligations.ExpandNeverWritesPartially := by
  intro klen blen s t h
  obtain ⟨herr, hek, hekv⟩ | ⟨hok, hek, hekv⟩ := exec_expand_cases h
  · exact ⟨fun _ => ⟨hek, hekv⟩, fun hok => absurd hok herr⟩
  · refine ⟨fun herr => absurd hok herr, fun _ => ⟨?_, hekv⟩⟩
    rw [hek]
    exact isScheduleOf_expandKey s.keyReg.bytes

end Sys2Proof.Machine

/-!
Errors and the fault record (60_exceptions.md): the size errors of EXPAND, what a command that fails leaves alone, and the
record of ReadUnwritten, which no step clears.
-/

namespace Sys2Proof.Machine

/-! ### Commands that fail -/

/-- With its family available, an EXPAND whose size check fails binds the family and raises that error, nothing more (R202,
R205, R206). -/
theorem exec_expand_of_sizeError {klen blen : Byte} {e : ErrCode} {s : State} (he : expandSizeError klen blen = some e)
    (ha : familyAvailable .keySchedule s = true) :
    ∃ t, exec (.expand klen blen) s = .next t ∧ t = { s with err := e, bindings := t.bindings } ∧
      BindsOnly .keySchedule s t := by
  obtain ⟨s1, hbind, hnext⟩ := familyCommand_of_available (performExpand klen blen) ha
  refine ⟨raiseError e s1, ?_, congrArg (raiseError e) (bindFamily_extends hbind).1, (bindFamily_bindsOnly hbind).congr rfl⟩
  simp only [exec_expand, hnext, performExpand, he]

/-- Settles O43: KLEN is checked before BLEN. -/
theorem expandSizeErrors : Obligations.ExpandSizeErrors := by
  refine fun klen blen s ha => ⟨fun hklen => ?keySize, fun hklen hblen => ?bufferSize⟩
  case keySize => exact exec_expand_of_sizeError (by simp [expandSizeError, hklen]) ha
  case bufferSize => exact exec_expand_of_sizeError (by simp [expandSizeError, hklen, hblen]) ha

/-- Settles O49: of the four ends of a command only the failing one leaves ERR ≠ 0. -/
theorem failedCommandOnlyBinds : Obligations.FailedCommandOnlyBinds := by
  intro i s t h herr
  obtain ⟨b, -, ⟨e, -, rfl⟩ | ⟨-, rfl⟩ | ⟨-, g, w, rfl, -⟩ | ⟨-, rfl⟩⟩ := exec_cases h
  · rfl
  · exact absurd rfl herr
  · exact absurd rfl herr
  · exact absurd rfl herr

/-! ### The record of ReadUnwritten -/

/-- From `s` to `t` the record stayed as it was, or ReadUnwritten was recorded (R219). -/
def RecordGrows (s t : State) : Prop :=
  t.modelFault = s.modelFault ∨ t.modelFault = some .readUnwritten

theorem recordUnwritten_grows (w : Bool) (s : State) : RecordGrows s (recordUnwritten w s) := by
  cases w with
  | true => exact .inl rfl
  | false => exact .inr rfl

/-- A command that reads its operands records at most that one was not written. -/
theorem exec_recordGrows {i : Instr} {s t : State} (h : exec i s = .next t) : RecordGrows s t := by
  obtain ⟨b, -, ⟨e, -, rfl⟩ | ⟨-, rfl⟩ | ⟨-, g, w, rfl, -⟩ | ⟨-, rfl⟩⟩ := exec_cases h
  · exact .inl rfl
  · exact .inl rfl
  · exact recordUnwritten_grows w { s with bindings := b }
  · exact recordUnwritten_grows (isWritten s.keyReg) { s with bindings := b }

theorem execute_recordGrows {w : Word} {s t : State} (h : execute w s = .next t) : RecordGrows s t := by
  obtain ⟨r, -, rfl⟩ | ⟨i, -, hexec⟩ := execute_cases h
  · exact .inl rfl
  · exact exec_recordGrows hexec

theorem regRead_recordGrows (off : BitVec 9) (bits : Nat) (s : State) : RecordGrows s (regRead off bits s) := by
  unfold regRead
  split
  · exact .inl rfl
  · exact recordUnwritten_grows _ s

theorem HostWrite.modelFault {s t : State} (h : HostWrite s t) : t.modelFault = s.modelFault := by
  cases h with
  | ignored | override | stateWord | rkeyWord | keyWord => rfl

/-- A step does nothing to the record but record ReadUnwritten; reset, which keeps it, is no exception (R219). -/
theorem step_recordGrows {s t : State} (h : step s = .next t) : RecordGrows s t := by
  cases step_cases h with
  | idle => exact .inl rfl
  | read off bits rest hp => exact regRead_recordGrows off bits (takeAccess rest s)
  | reset => exact .inl rfl
  | rejected => exact .inl rfl
  | hostWrite off v r rest t hp hreg hcmd hw => exact .inl (windowWrite_cases hcmd hw).modelFault
  | command w rest t hp hw =>
    have hgrow := execute_recordGrows hw
    exact hgrow

/-- Settles O54: ReadUnwritten is the one fault there is, so recording it again keeps the record. -/
theorem recordedFaultIsNeverCleared : Obligations.RecordedFaultIsNeverCleared := by
  intro s t x hstep hx
  obtain hkeep | hrecord := step_recordGrows hstep
  · exact hkeep.trans hx
  · cases x with
    | readUnwritten => exact hrecord

end Sys2Proof.Machine

/-!
Progress (70_reset_and_hazards.md R233, R237): the command cycle answers a next state (`familyCommand_total`), so every
command does, and with it every CMD write and every other access of the port.
-/

namespace Sys2Proof.Machine

/-- A family's command is the command cycle; ARK with an illegal selector and SELECT answer without it (R105, R106). -/
theorem exec_total (i : Instr) (s : State) : ∃ t, exec i s = .next t := by
  cases i with
  | sub | invsub => exact familyCommand_total .confusion (performOnState _) s
  | shr | invshr | mix | invmix => exact familyCommand_total .diffusion (performOnState _) s
  | expand klen blen => exact familyCommand_total .keySchedule (performExpand klen blen) s
  | ark rksel =>
    simp only [exec, execArk]
    split
    · exact ⟨_, rfl⟩
    · exact familyCommand_total .confusion _ s
  | select fam =>
    simp only [exec, execSelect]
    split <;> exact ⟨_, rfl⟩

/-- An illegal word ends in IllegalCommand, a legal one in its command (R85, R105). -/
theorem execute_total (w : Word) (s : State) : ∃ t, execute w s = .next t := by
  unfold execute
  split
  · exact ⟨_, rfl⟩
  · exact exec_total _ s

/-- Only a write to CMD can do more than an update of one field (R53). -/
theorem windowWrite_total (r : WindowReg) (v : Word) (s : State) : ∃ t, windowWrite r v s = .next t := by
  cases r with
  | cmd => exact execute_total v s
  | status | cap | override | bind | stateWord j | rkeyWord j | keyWord j | ekWord i => exact ⟨_, rfl⟩

/-- A rejected write is answered too: BusError is a response of the port (R56). -/
theorem regWrite_total (off : BitVec 9) (bits : Nat) (v : Word) (s : State) : ∃ t, regWrite off bits v s = .next t := by
  unfold regWrite
  split
  · exact ⟨_, rfl⟩
  · exact windowWrite_total _ v _

theorem service_total (e : PortEvent) (s : State) : ∃ t, service e s = .next t := by
  cases e with
  | read off bits => exact ⟨_, rfl⟩
  | write off bits v => exact regWrite_total off bits v s
  | reset => exact ⟨_, rfl⟩

theorem step_total (s : State) : ∃ t, step s = .next t := by
  cases hp : s.port with
  | nil => exact ⟨_, step_idle hp⟩
  | cons e rest =>
    rw [step_service hp]
    exact service_total e (takeAccess rest s)

/-- Settles O7: a step idles or services one access, and the one access that can run a command is a CMD write. -/
theorem everyStepAnswersNext : Obligations.EveryStepAnswersNext := ⟨step_total, exec_total⟩

end Sys2Proof.Machine
